-- ==== Sys2Proof/Word.lean ====
section
/-! DEFINITION. The two word types of the block: the 8-bit byte (R8, R45) and the 40-bit command word (R55). -/

namespace Sys2Proof

/-- R8, R45: the width of the byte operand, of every other operand, of every result and of ERR. -/
abbrev Byte := BitVec 8

/-- R55: a command word, 40 bits, bit 39 first in the spec's pattern. -/
abbrev CmdWord := BitVec 40

end Sys2Proof
end

