-- ==== Sys2Proof/Config.lean ====
section
/-! DEFINITION. What an implementation of the block fixes: the error kinds and their flag positions, the parameters of R6, and
the free values that stand for what the spec leaves unspecified. -/

namespace Sys2Proof

/-- R141: the five error kinds, in the order of the spec's table. -/
inductive ErrorKind where
  | indexOutOfRange
  | valueOverflow
  | lengthInvalid
  | startBitInvalid
  | totalLengthExceeded
  deriving DecidableEq, Repr

namespace Config

/-- R6, R26: FLAG_BIT, the bit of ERR that records each kind: any assignment of the five kinds to distinct bits of ERR. -/
structure FlagBit where
  indexOutOfRange : Fin 8
  valueOverflow : Fin 8
  lengthInvalid : Fin 8
  startBitInvalid : Fin 8
  totalLengthExceeded : Fin 8
  /-- R26: distinct kinds have distinct flags. -/
  distinct : [indexOutOfRange, valueOverflow, lengthInvalid, startBitInvalid, totalLengthExceeded].Nodup
  deriving DecidableEq, Repr

/-- R26: `FLAG_BIT(k)`. -/
def FlagBit.bit (fb : FlagBit) : ErrorKind → Fin 8
  | .indexOutOfRange => fb.indexOutOfRange
  | .valueOverflow => fb.valueOverflow
  | .lengthInvalid => fb.lengthInvalid
  | .startBitInvalid => fb.startBitInvalid
  | .totalLengthExceeded => fb.totalLengthExceeded

/-- R6, R25: the default of FLAG_BIT, in the order of the spec's table. The state after reset takes it (log 1); every operation
takes FLAG_BIT as an argument or from the state. -/
def flagBit : FlagBit :=
  { indexOutOfRange := 0, valueOverflow := 1, lengthInvalid := 2, startBitInvalid := 3, totalLengthExceeded := 4
    distinct := by decide }

/-- R6, R109: SINGLE_BIT_OPS, whether opcodes 0x10 to 0x1B exist, at its default. DESIGN CHOICE
(log 2): the state after reset takes the spec's default of an open parameter; unsafe for an instance built without the group,
which lacks these commands. -/
def singleBitOps : Bool := true

/-- R6, R166: LATENCY, the cycles from acceptance of a command to its response. The spec leaves it open; no body, so nothing
can rest on a value of it (log 3). -/
opaque latency : Nat

/-- R167: the depth of the response buffer less one. The spec leaves the depth open but for its bound of at least 1; no body,
so nothing can rest on a value of it (log 3). -/
opaque extraDepth : Nat

/-- R9, R82: the free value behind `result <- UNSPEC`, drawn with a counter of the state so that every draw is its own
(log 4); R59: also behind the response owed for a reserved word, in the outputs of the cycle that accepts it (log 18). -/
opaque unspecResult : Nat → Byte

/-- R33: the free value on `rsp_data` in a cycle that offers no response, drawn with the same counter (log 5). -/
opaque idleRspData : Nat → Byte

/-- R6, R167: the parameters of an instance of the block. The state carries them (log 17), so that a statement about every state
is one for every value of them. -/
structure Params where
  /-- FLAG_BIT. -/
  flagBit : FlagBit
  /-- SINGLE_BIT_OPS. -/
  singleBitOps : Bool
  /-- LATENCY. -/
  latency : Nat
  /-- The depth of the response buffer less one. -/
  extraDepth : Nat
  deriving DecidableEq, Repr

/-- R167: how many accepted and unanswered commands the block can hold: at least 1. -/
def Params.depth (p : Params) : Nat := p.extraDepth + 1

/-- The parameters of the modelled instance. -/
def params : Params :=
  { flagBit := flagBit, singleBitOps := singleBitOps, latency := latency, extraDepth := extraDepth }

end Config
end Sys2Proof
end

