-- ==== Sys2Proof/Syntax.lean ====
section
/-! DEFINITION. The commands of the block, one constructor per row of the opcode map (R57). A constructor holds exactly the
operands its row reads: `b` the byte, `s` the start bit, `l` the length, `v` the value, `i` the index. -/

namespace Sys2Proof

/-- R57: the sixteen commands; every operand is its 8-bit field (R56). -/
inductive Instr where
  /-- R81. -/
  | inspect
  /-- R82. -/
  | clear
  /-- R96. -/
  | extract (b s l : Byte)
  /-- R97. -/
  | insert (b s l v : Byte)
  /-- R111. -/
  | getbit (b i : Byte)
  /-- R112. -/
  | setbit (b i : Byte)
  /-- R113. -/
  | resetbit (b i : Byte)
  /-- R114. -/
  | flipbit (b i : Byte)
  /-- R116. -/
  | getlsb (b : Byte)
  /-- R117. -/
  | getmsb (b : Byte)
  /-- R118. -/
  | setlsb (b : Byte)
  /-- R119. -/
  | setmsb (b : Byte)
  /-- R120. -/
  | resetlsb (b : Byte)
  /-- R121. -/
  | resetmsb (b : Byte)
  /-- R122. -/
  | fliplsb (b : Byte)
  /-- R123. -/
  | flipmsb (b : Byte)
  deriving DecidableEq, Repr

end Sys2Proof
end

