-- ==== Sys2Proof/WellFormed.lean ====
section
/-! DEFINITION. Which commands exist on an instance of the block. Every operand value of every command can be encoded (R56),
so the one check is the presence of the optional single-bit group (R109). -/

namespace Sys2Proof

/-- R4, R57: the commands of the optional group, opcodes 0x10 to 0x1B. -/
def Instr.isSingleBit : Instr → Bool
  | .inspect => false
  | .clear => false
  | .extract _ _ _ => false
  | .insert _ _ _ _ => false
  | .getbit _ _ => true
  | .setbit _ _ => true
  | .resetbit _ _ => true
  | .flipbit _ _ => true
  | .getlsb _ => true
  | .getmsb _ => true
  | .setlsb _ => true
  | .setmsb _ => true
  | .resetlsb _ => true
  | .resetmsb _ => true
  | .fliplsb _ => true
  | .flipmsb _ => true

/-- R109: a single-bit command exists only where SINGLE_BIT_OPS is true; every other command exists always. -/
def Instr.wellFormedWith (singleBitOps : Bool) (i : Instr) : Bool :=
  singleBitOps || !i.isSingleBit

/-- The check on the modelled instance. -/
def Instr.wellFormed (i : Instr) : Bool :=
  i.wellFormedWith Config.singleBitOps

end Sys2Proof
end

