-- ==== Sys2Proof/Decode.lean ====
section
/-! DEFINITION. The decoder of the 40-bit command word (R55 to R60), total and naming what it rejects; then the encoder, the
assembler's operand check (R61), and the carriage of a command word over a byte-wide bus (R43). -/

namespace Sys2Proof

/-- R55, R56: `op = cmd[39:32]`. -/
def opField (w : CmdWord) : Byte := w.extractLsb' 32 8
/-- R55, R56: `v = cmd[31:24]`. -/
def vField (w : CmdWord) : Byte := w.extractLsb' 24 8
/-- R55, R56: `l = cmd[23:16]`. -/
def lField (w : CmdWord) : Byte := w.extractLsb' 16 8
/-- R55, R56: `s = cmd[15:8]`. -/
def sField (w : CmdWord) : Byte := w.extractLsb' 8 8
/-- R55, R56: `b = cmd[7:0]`. -/
def bField (w : CmdWord) : Byte := w.extractLsb' 0 8

/-- R57: the mnemonics of the opcode map. -/
inductive Mnemonic where
  | inspect | clear | extract | insert
  | getbit | setbit | resetbit | flipbit
  | getlsb | getmsb | setlsb | setmsb
  | resetlsb | resetmsb | fliplsb | flipmsb
  deriving DecidableEq, Repr

/-- R57: the rows of the opcode map, in its order. -/
def opcodeRows : List (Byte × Mnemonic) :=
  [(0x00, .inspect), (0x01, .clear), (0x02, .extract), (0x03, .insert)] ++
  [(0x10, .getbit), (0x11, .setbit), (0x12, .resetbit), (0x13, .flipbit)] ++
  [(0x14, .getlsb), (0x15, .getmsb), (0x16, .setlsb), (0x17, .setmsb)] ++
  [(0x18, .resetlsb), (0x19, .resetmsb), (0x1A, .fliplsb), (0x1B, .flipmsb)]

/-- R57: the command of a row, built from the fields its row reads; the others are ignored (R58). -/
def Mnemonic.build (m : Mnemonic) (v l s b : Byte) : Instr :=
  match m with
  | .inspect => .inspect
  | .clear => .clear
  | .extract => .extract b s l
  | .insert => .insert b s l v
  | .getbit => .getbit b s
  | .setbit => .setbit b s
  | .resetbit => .resetbit b s
  | .flipbit => .flipbit b s
  | .getlsb => .getlsb b
  | .getmsb => .getmsb b
  | .setlsb => .setlsb b
  | .setmsb => .setmsb b
  | .resetlsb => .resetlsb b
  | .resetmsb => .resetmsb b
  | .fliplsb => .fliplsb b
  | .flipmsb => .flipmsb b

/-- What the decoder answers: a command, or the name of the reserved opcode (R59, R60). -/
inductive Decoded where
  | instr (i : Instr)
  | reserved (op : Byte)
  deriving DecidableEq, Repr

/-- R60: the row whose opcode the word holds, whatever its other bits. -/
def rowOf (op : Byte) : Option Mnemonic :=
  (opcodeRows.find? (fun r => r.1 == op)).map (·.2)

/-- R57, R59, R60: `decode(cmd)`, the row of the opcode if it is present on this instance, else `Reserved(cmd[39:32])`. -/
def decodeWith (singleBitOps : Bool) (w : CmdWord) : Decoded :=
  match rowOf (opField w) with
  | none => .reserved (opField w)
  | some m =>
    if (m.build (vField w) (lField w) (sField w) (bField w)).wellFormedWith singleBitOps then
      .instr (m.build (vField w) (lField w) (sField w) (bField w))
    else .reserved (opField w)

/-- The decoder of the modelled instance. -/
def decode (w : CmdWord) : Decoded :=
  decodeWith Config.singleBitOps w

/-- R55: the command word of five fields, `oooooooo vvvvvvvv llllllll ssssssss bbbbbbbb`. -/
def cmdWord (op v l s b : Byte) : CmdWord :=
  op ++ v ++ l ++ s ++ b

/-- R57, R58, R61: the encoder; a field the command does not read is written as 0. -/
def encode : Instr → CmdWord
  | .inspect => cmdWord 0x00 0 0 0 0
  | .clear => cmdWord 0x01 0 0 0 0
  | .extract b s l => cmdWord 0x02 0 l s b
  | .insert b s l v => cmdWord 0x03 v l s b
  | .getbit b i => cmdWord 0x10 0 0 i b
  | .setbit b i => cmdWord 0x11 0 0 i b
  | .resetbit b i => cmdWord 0x12 0 0 i b
  | .flipbit b i => cmdWord 0x13 0 0 i b
  | .getlsb b => cmdWord 0x14 0 0 0 b
  | .getmsb b => cmdWord 0x15 0 0 0 b
  | .setlsb b => cmdWord 0x16 0 0 0 b
  | .setmsb b => cmdWord 0x17 0 0 0 b
  | .resetlsb b => cmdWord 0x18 0 0 0 b
  | .resetmsb b => cmdWord 0x19 0 0 0 b
  | .fliplsb b => cmdWord 0x1A 0 0 0 b
  | .flipmsb b => cmdWord 0x1B 0 0 0 b

/-- The bits of an opcode-table row as a command word: bit 0 of the number is `cmd[0]`, and bits above `nbits` are 0. -/
def tableWord (nbits w : Nat) : CmdWord :=
  BitVec.ofNat 40 (w % 2 ^ nbits)

/-- The command the decoder reads from the bits of an opcode-table row. -/
def decodeTableWord (nbits w : Nat) : Option Instr :=
  match decode (tableWord nbits w) with
  | .instr i => some i
  | .reserved _ => none

/-- R61: why the assembler rejects a line. -/
inductive AsmError where
  | operandOutOfRange
  | operandCount
  deriving DecidableEq, Repr

/-- R61: an operand is a numeral in 0..255. -/
def asmOperand (n : Nat) : Option Byte :=
  if n ≤ 255 then some (BitVec.ofNat 8 n) else none

/-- R61: a line's operands in the order the assembler writes them. -/
def Mnemonic.ofOperands (m : Mnemonic) (ops : List Byte) : Option Instr :=
  match m, ops with
  | .inspect, [] => some .inspect
  | .clear, [] => some .clear
  | .extract, [b, s, l] => some (.extract b s l)
  | .insert, [b, s, l, v] => some (.insert b s l v)
  | .getbit, [b, i] => some (.getbit b i)
  | .setbit, [b, i] => some (.setbit b i)
  | .resetbit, [b, i] => some (.resetbit b i)
  | .flipbit, [b, i] => some (.flipbit b i)
  | .getlsb, [b] => some (.getlsb b)
  | .getmsb, [b] => some (.getmsb b)
  | .setlsb, [b] => some (.setlsb b)
  | .setmsb, [b] => some (.setmsb b)
  | .resetlsb, [b] => some (.resetlsb b)
  | .resetmsb, [b] => some (.resetmsb b)
  | .fliplsb, [b] => some (.fliplsb b)
  | .flipmsb, [b] => some (.flipmsb b)
  | _, _ => none

/-- R61: one assembler line, its mnemonic and the numbers its numerals stand for, as a command word (log 13). -/
def assemble (m : Mnemonic) (operands : List Nat) : Except AsmError CmdWord :=
  match operands.mapM asmOperand with
  | none => .error .operandOutOfRange
  | some ops =>
    match m.ofOperands ops with
    | none => .error .operandCount
    | some i => .ok (encode i)

/-- R43, R6: byte `j` of a command word, byte 0 its bits 7:0. -/
def cmdByte (w : CmdWord) (j : Fin 5) : Byte := w.extractLsb' (8 * j.val) 8

/-- R43: a command word as the five bytes a byte-wide bus carries, under a byte order given as the platform's premise
(CMD_BYTE_ORDER, log 12): `order k` is the byte of the word that comes `k`-th. -/
def busBytes (order : Fin 5 → Fin 5) (w : CmdWord) : List Byte :=
  [cmdByte w (order 0), cmdByte w (order 1), cmdByte w (order 2), cmdByte w (order 3), cmdByte w (order 4)]

/-- R43: byte `a` put where the order says its place in the word is. -/
def placeByte (a : Byte) (j : Fin 5) : CmdWord := (a.setWidth 40) <<< (8 * j.val)

/-- R43: the word the block sees, reassembled from what the bus carried; none where it did not carry five bytes. -/
def ofBusBytes (order : Fin 5 → Fin 5) (bytes : List Byte) : Option CmdWord :=
  match bytes with
  | [a0, a1, a2, a3, a4] =>
    some (placeByte a0 (order 0) ||| placeByte a1 (order 1) ||| placeByte a2 (order 2) ||| placeByte a3 (order 3) |||
      placeByte a4 (order 4))
  | _ => none

end Sys2Proof
end

