-- ==== Sys2Proof/Machine/State.lean ====
section
/-! DEFINITION. The state of the block as plain data, its reset value, and the reasons a step can stop. -/

namespace Sys2Proof.Machine

/-- R54, R166: a command accepted and not yet answered. -/
structure InFlight where
  /-- What its response will carry on `rsp_data`. -/
  result : Byte
  /-- The cycles since the one it was accepted in. -/
  age : Nat
  deriving DecidableEq, Repr

/-- R54: what the outside drives on the input ports in the cycle before one rising edge of `clk`. -/
structure PortIn where
  /-- `rst`. -/
  rst : Bool
  /-- `cmd_valid`. -/
  cmdValid : Bool
  /-- `cmd`. -/
  cmd : CmdWord
  /-- `rsp_ready`. -/
  rspReady : Bool
  deriving DecidableEq, Repr

/-- The block and its two sides: `err` and `inFlight` are the state the spec gives it (R20, R166); `inputs` and `delivered`
are what the outside will drive and has taken (R54, log 6); `params` are the instance's parameters, which no step changes (R6,
log 17); `draws` counts the free values drawn (log 4). -/
structure State where
  /-- R6: the parameters of the instance. -/
  params : Config.Params
  /-- R20, R24: ERR, the error accumulator. -/
  err : Byte
  /-- R166: the commands in flight, oldest first. -/
  inFlight : List InFlight
  /-- R54: the input ports at the coming edges, soonest first; past its end the ports are idle (log 6). Commands of several hosts
  stand in the order their arbiter chose (R49, log 9). -/
  inputs : List PortIn
  /-- R54: the responses the outside has taken, oldest first. -/
  delivered : List Byte
  /-- The model's own: the index of the next free value. -/
  draws : Nat
  deriving DecidableEq, Repr

/-- R95, R140: no command of the block traps, aborts or raises an exception, so there is no way to fault. -/
inductive Fault where
  deriving DecidableEq, Repr

/-- Why a step has no meaning. -/
inductive Refusal where
  /-- Raised by a refused arm of `exec` for a command without a meaning; safe. No arm of this model does. -/
  | notModelled (mnemonic : String)
  /-- R59: raised when a command word with a reserved opcode is accepted; the spec says that a model refuses it (log 10). Safe. -/
  | reservedOpcode (op : Byte)
  deriving DecidableEq, Repr

/-- R30, R33, R162: the block after reset: no error, nothing in flight. The outside has driven and taken nothing; `draws` is
0 by DESIGN CHOICE (log 4); the parameters are those of the modelled instance (log 1, log 2, log 3). -/
def State.reset : State :=
  { params := Config.params, err := 0, inFlight := [], inputs := [], delivered := [], draws := 0 }

end Sys2Proof.Machine
end

