-- ==== Sys2Proof/Machine/Flags.lean ====
section
/-! DEFINITION. The flags of ERR, for every FLAG_BIT: the flag of a kind, setting and reading it, the reserved bits, and the set
of kinds that a value of ERR stands for (R25 to R27, R31, R80). -/

namespace Sys2Proof.Machine

/-- R141: the code of a kind, `1 << FLAG_BIT(k)`. -/
def flagMask (fb : Config.FlagBit) (k : ErrorKind) : Byte := (1 : Byte) <<< (fb.bit k).val

/-- R80: `ERR | (1 << FLAG_BIT(k))`. -/
def setFlag (fb : Config.FlagBit) (k : ErrorKind) (err : Byte) : Byte := err ||| flagMask fb k

/-- Whether ERR records kind `k`. -/
def hasFlag (fb : Config.FlagBit) (k : ErrorKind) (err : Byte) : Bool := err.getLsbD (fb.bit k).val

/-- R141: the five kinds. -/
def allKinds : List ErrorKind :=
  [.indexOutOfRange, .valueOverflow, .lengthInvalid, .startBitInvalid, .totalLengthExceeded]

/-- R31: `encode(S)`, the OR over the kinds in `S` of `1 << FLAG_BIT(k)`. -/
def encodeKinds (fb : Config.FlagBit) (S : ErrorKind → Bool) : Byte :=
  allKinds.foldl (fun acc k => if S k then acc ||| flagMask fb k else acc) 0

/-- R27: the bits of ERR that FLAG_BIT does not name. -/
def reservedBits (fb : Config.FlagBit) : Byte := ~~~ encodeKinds fb (fun _ => true)

end Sys2Proof.Machine
end

