-- ==== Sys2Proof/Machine/Operands.lean ====
section
/-! DEFINITION. The operands of a command: the validation checks, each answering the first kind that fails (R90, R91, R110),
and the masks and results over unbounded naturals (R9, R93, R96, R97, R111 to R123). -/

namespace Sys2Proof.Machine

/-- R90: `check_field(s, l)`. -/
def checkField (s l : Byte) : Option ErrorKind :=
  if ¬ s.toNat < 8 then some .startBitInvalid
  else if ¬ (1 ≤ l.toNat ∧ l.toNat ≤ 8) then some .lengthInvalid
  else if ¬ s.toNat + l.toNat ≤ 8 then some .totalLengthExceeded
  else none

/-- R91: `check_value(l, v)`. -/
def checkValue (l v : Byte) : Option ErrorKind :=
  if ¬ v.toNat ≤ 2 ^ l.toNat - 1 then some .valueOverflow else none

/-- R97: `check_field`, and `check_value` only after it has passed. -/
def checkInsert (s l v : Byte) : Option ErrorKind :=
  match checkField s l with
  | some k => some k
  | none => checkValue l v

/-- R110: `check_index(i)`. -/
def checkIndex (i : Byte) : Option ErrorKind :=
  if ¬ i.toNat ≤ 7 then some .indexOutOfRange else none

/-- R9: `~8 a = 0xFF ^ a[7:0]`. -/
def compl8 (a : Nat) : Nat := 0xFF ^^^ (a % 256)

/-- R93: `low_mask(l) = 0xFF >> (8 - l)`. -/
def lowMask (l : Nat) : Nat := 0xFF >>> (8 - l)

/-- R93: `field_mask(s, l) = ((1 << l) - 1) << s`. -/
def fieldMask (s l : Nat) : Nat := ((1 <<< l) - 1) <<< s

/-- R96: `(b >> s) & low_mask(l)`. -/
def extractValue (b s l : Nat) : Nat := (b >>> s) &&& lowMask l

/-- R97: `(b & ~8 m) | (v << s)`. -/
def insertValue (b s l v : Nat) : Nat := (b &&& compl8 (fieldMask s l)) ||| (v <<< s)

/-- R111: `(b >> i) & 1`. -/
def getBitValue (b i : Nat) : Nat := (b >>> i) &&& 1

/-- R112: `b | (1 << i)`. -/
def setBitValue (b i : Nat) : Nat := b ||| (1 <<< i)

/-- R113: `b & ~8 (1 << i)`. -/
def resetBitValue (b i : Nat) : Nat := b &&& compl8 (1 <<< i)

/-- R114: `b ^ (1 << i)`. -/
def flipBitValue (b i : Nat) : Nat := b ^^^ (1 <<< i)

/-- R10: the result is the low 8 bits of the pseudocode's value. -/
def resultByte (n : Nat) : Byte := BitVec.ofNat 8 n

end Sys2Proof.Machine
end

