-- ==== Sys2Proof/Machine/Ops.lean ====
section
/-! DEFINITION. The named operations on the state: answering a command, accumulating a flag, the failure path every failing
command takes, clearing ERR, drawing a free value, and the reset edge. -/

namespace Sys2Proof.Machine

/-- R54, R167: an accepted command's one response joins the others behind them. -/
def respond (r : Byte) (s : State) : State :=
  { s with inFlight := s.inFlight ++ [{ result := r, age := 0 }] }

/-- R80: `accumulate(k)`, under the instance's FLAG_BIT. -/
def accumulate (k : ErrorKind) (s : State) : State :=
  { s with err := setFlag s.params.flagBit k s.err }

/-- R94: the failure path, which takes the place of an exception (R144): the byte operand is the result and exactly one flag is
set. -/
def failPath (k : ErrorKind) (b : Byte) (s : State) : State :=
  respond b (accumulate k s)

/-- R82: `ERR <- 0x00`. -/
def clearErr (s : State) : State :=
  { s with err := 0 }

/-- R9: `result <- UNSPEC`, a response that carries a fresh free value (log 4). -/
def respondUnspec (s : State) : State :=
  { respond (Config.unspecResult s.draws) s with draws := s.draws + 1 }

/-- R94, R95: a validated command: the failure path on the first check that fails, else the result alone. -/
def validated (check : Option ErrorKind) (b r : Byte) (s : State) : State :=
  match check with
  | some k => failPath k b s
  | none => respond r s

/-- R160: a rising edge with `rst` = 1: ERR becomes 0 and every command in flight is discarded, its response undelivered
(log 14). -/
def resetEdge (s : State) : State :=
  { s with err := 0, inFlight := [] }

end Sys2Proof.Machine
end

