-- ==== Sys2Proof/Machine/BitField.lean ====
section
/-! DEFINITION. The Bit-Field Engine commands: EXTRACT and INSERT. -/

namespace Sys2Proof.Machine

/-- R96: `check_field(s, l)`, then `(b >> s) & low_mask(l)`. -/
def execExtract (b s l : Byte) (st : State) : Host.Outcome State Fault Refusal :=
  .next (validated (checkField s l) b (resultByte (extractValue b.toNat s.toNat l.toNat)) st)

/-- R97: `check_field(s, l)`, `check_value(l, v)`, then `(b & ~8 m) | (v << s)`. -/
def execInsert (b s l v : Byte) (st : State) : Host.Outcome State Fault Refusal :=
  .next (validated (checkInsert s l v) b (resultByte (insertValue b.toNat s.toNat l.toNat v.toNat)) st)

end Sys2Proof.Machine
end

