-- ==== Sys2Proof/Machine/ErrorState.lean ====
section
/-! DEFINITION. The Error State commands: INSPECT and CLEAR. -/

namespace Sys2Proof.Machine

/-- R81: `result <- ERR[7:0]`; ERR is unchanged. -/
def execInspect (s : State) : Host.Outcome State Fault Refusal :=
  .next (respond s.err s)

/-- R82: `ERR <- 0x00; result <- UNSPEC`. -/
def execClear (s : State) : Host.Outcome State Fault Refusal :=
  .next (respondUnspec (clearErr s))

end Sys2Proof.Machine
end

