-- ==== Sys2Proof/Machine/SingleBit.lean ====
section
/-! DEFINITION. The single-bit commands: four at an index that is validated, eight at a fixed position that needs no check. -/

namespace Sys2Proof.Machine

/-- R111: `check_index(i)`, then `(b >> i) & 1`. -/
def execGetbit (b i : Byte) (s : State) : Host.Outcome State Fault Refusal :=
  .next (validated (checkIndex i) b (resultByte (getBitValue b.toNat i.toNat)) s)

/-- R112: `check_index(i)`, then `b | (1 << i)`. -/
def execSetbit (b i : Byte) (s : State) : Host.Outcome State Fault Refusal :=
  .next (validated (checkIndex i) b (resultByte (setBitValue b.toNat i.toNat)) s)

/-- R113: `check_index(i)`, then `b & ~8 (1 << i)`. -/
def execResetbit (b i : Byte) (s : State) : Host.Outcome State Fault Refusal :=
  .next (validated (checkIndex i) b (resultByte (resetBitValue b.toNat i.toNat)) s)

/-- R114: `check_index(i)`, then `b ^ (1 << i)`; that flip inverts is the spec's reading (log 7). -/
def execFlipbit (b i : Byte) (s : State) : Host.Outcome State Fault Refusal :=
  .next (validated (checkIndex i) b (resultByte (flipBitValue b.toNat i.toNat)) s)

/-- R116: `b & 1`. -/
def execGetlsb (b : Byte) (s : State) : Host.Outcome State Fault Refusal :=
  .next (respond (b &&& 0x01) s)

/-- R117: `(b >> 7) & 1`. -/
def execGetmsb (b : Byte) (s : State) : Host.Outcome State Fault Refusal :=
  .next (respond ((b >>> 7) &&& 0x01) s)

/-- R118: `b | 0x01`. -/
def execSetlsb (b : Byte) (s : State) : Host.Outcome State Fault Refusal :=
  .next (respond (b ||| 0x01) s)

/-- R119: `b | 0x80`. -/
def execSetmsb (b : Byte) (s : State) : Host.Outcome State Fault Refusal :=
  .next (respond (b ||| 0x80) s)

/-- R120: `b & 0xFE`. -/
def execResetlsb (b : Byte) (s : State) : Host.Outcome State Fault Refusal :=
  .next (respond (b &&& 0xFE) s)

/-- R121: `b & 0x7F`. -/
def execResetmsb (b : Byte) (s : State) : Host.Outcome State Fault Refusal :=
  .next (respond (b &&& 0x7F) s)

/-- R122: `b ^ 0x01` (log 7). -/
def execFliplsb (b : Byte) (s : State) : Host.Outcome State Fault Refusal :=
  .next (respond (b ^^^ 0x01) s)

/-- R123: `b ^ 0x80` (log 7). -/
def execFlipmsb (b : Byte) (s : State) : Host.Outcome State Fault Refusal :=
  .next (respond (b ^^^ 0x80) s)

end Sys2Proof.Machine
end

