-- ==== Sys2Proof/Machine/Dispatch.lean ====
section
/-! DEFINITION. One arm per command: the call of its meaning. -/

namespace Sys2Proof.Machine

/-- R57: the effect of an accepted command. -/
def exec (i : Instr) (s : State) : Host.Outcome State Fault Refusal :=
  match i with
  | .inspect => Sys2Proof.Machine.execInspect s
  | .clear => Sys2Proof.Machine.execClear s
  | .extract b sb l => Sys2Proof.Machine.execExtract b sb l s
  | .insert b sb l v => Sys2Proof.Machine.execInsert b sb l v s
  | .getbit b ix => Sys2Proof.Machine.execGetbit b ix s
  | .setbit b ix => Sys2Proof.Machine.execSetbit b ix s
  | .resetbit b ix => Sys2Proof.Machine.execResetbit b ix s
  | .flipbit b ix => Sys2Proof.Machine.execFlipbit b ix s
  | .getlsb b => Sys2Proof.Machine.execGetlsb b s
  | .getmsb b => Sys2Proof.Machine.execGetmsb b s
  | .setlsb b => Sys2Proof.Machine.execSetlsb b s
  | .setmsb b => Sys2Proof.Machine.execSetmsb b s
  | .resetlsb b => Sys2Proof.Machine.execResetlsb b s
  | .resetmsb b => Sys2Proof.Machine.execResetmsb b s
  | .fliplsb b => Sys2Proof.Machine.execFliplsb b s
  | .flipmsb b => Sys2Proof.Machine.execFlipmsb b s

end Sys2Proof.Machine
end

