-- ==== Sys2Proof/Machine/Port.lean ====
section
/-! DEFINITION. The ports of the block and one rising edge of its clock (R54, R160, R161, R166, R167), under the parameters the
state carries. -/

namespace Sys2Proof.Machine

/-- R54: the ports with nothing driven: no reset, no command offered, no response taken. -/
def PortIn.idle : PortIn := { rst := false, cmdValid := false, cmd := 0, rspReady := false }

/-- R54, R160, R167: `cmd_ready`: 0 while `rst` is 1, else 1 exactly while the block can hold one more response. DEDUCED
(log 8): the spec gives no other reason for it to fall. -/
def cmdReady (i : PortIn) (s : State) : Bool :=
  !i.rst && decide (s.inFlight.length < s.params.depth)

/-- R54: a command is accepted at an edge where `cmd_valid` and `cmd_ready` are both 1. -/
def accepts (i : PortIn) (s : State) : Bool :=
  i.cmdValid && cmdReady i s

/-- R48, R59: an accepted command word takes effect at once, or is refused by name if its opcode is reserved. -/
def issue (w : CmdWord) (s : State) : Host.Outcome State Fault Refusal :=
  match decodeWith s.params.singleBitOps w with
  | .instr i => exec i s
  | .reserved op => .refused (.reservedOpcode op)

/-- R54: the command half of an edge. -/
def acceptCommand (i : PortIn) (s : State) : Host.Outcome State Fault Refusal :=
  if accepts i s then issue i.cmd s else .next s

/-- R54, R166: the response on offer: the result of the oldest unanswered command once LATENCY cycles have passed since it was
accepted (log 11). -/
def offered (s : State) : Option Byte :=
  match s.inFlight with
  | [] => none
  | f :: _ => if s.params.latency ≤ f.age then some f.result else none

/-- R54: a response is taken at an edge where `rsp_valid` and `rsp_ready` are both 1. -/
def takeResponse (i : PortIn) (s : State) : State :=
  if i.rspReady then
    { s with
      inFlight := if (offered s).isSome then s.inFlight.tail else s.inFlight
      delivered := s.delivered ++ (offered s).toList }
  else s

/-- R166: a cycle passes for every command in flight. -/
def tick (s : State) : State :=
  { s with inFlight := s.inFlight.map (fun f => { f with age := f.age + 1 }), draws := s.draws + 1 }

/-- What an edge adds after the accepted command's effect: the response half, then the cycle. -/
def finishEdge (i : PortIn) (s : State) : State :=
  tick (takeResponse i s)

/-- R54, R160, R161: one rising edge of `clk` under the inputs `i`; reset wins over everything else. -/
def edge (i : PortIn) (s : State) : Host.Outcome State Fault Refusal :=
  if i.rst then .next (tick (resetEdge s))
  else
    match acceptCommand i s with
    | .next t => .next (finishEdge i t)
    | .fault r => .fault r
    | .refused r => .refused r

/-- The inputs of the coming edge: the next ones the outside will drive, or idle ports once there are none (log 6). -/
def nextInput (s : State) : PortIn := s.inputs.headD PortIn.idle

/-- The coming edge, its inputs consumed. -/
def nextEdge (s : State) : Host.Outcome State Fault Refusal :=
  edge (nextInput s) { s with inputs := s.inputs.tail }

/-- R54: the outputs of the block in a cycle. -/
structure PortOut where
  /-- `cmd_ready`. -/
  cmdReady : Bool
  /-- `rsp_valid`. -/
  rspValid : Bool
  /-- `rsp_data`. -/
  rspData : Byte
  deriving DecidableEq, Repr

/-- The response a cycle offers, with LATENCY 0 that of the very command it accepts (R166); none while `rst` is 1 (R160). In the
cycle that accepts a reserved word, whose edge is refused, the outputs count the one unspecified response R59 makes an
implementation owe for it, as a free value: DEDUCED (log 18), since R59 gives a model no outputs there. -/
def offeredIn (i : PortIn) (s : State) : Option Byte :=
  if i.rst then none
  else
    match acceptCommand i s with
    | .next t => offered t
    | .fault _ => offered s
    | .refused _ => offered (respond (Config.unspecResult s.draws) s)

/-- R54, R33: the outputs in a cycle; `rsp_data` is a free value where no response is offered (log 5). -/
def outputs (i : PortIn) (s : State) : PortOut :=
  { cmdReady := Machine.cmdReady i s
    rspValid := (offeredIn i s).isSome
    rspData := (offeredIn i s).getD (Config.idleRspData s.draws) }

/-- The state with room for one more response: as it is if it has room, else with every response taken by the outside. -/
def makeRoom (s : State) : State :=
  if s.inFlight.length < s.params.depth then s
  else { s with inFlight := [], delivered := s.delivered ++ s.inFlight.map (·.result) }

/-- The outside offers one command word at the coming edge, takes no response there, and finds the block ready (log 6). -/
def offerWord (w : CmdWord) (s : State) : State :=
  { makeRoom s with inputs := { rst := false, cmdValid := true, cmd := w, rspReady := false } :: s.inputs }

end Sys2Proof.Machine
end

