-- ==== Sys2Proof/Machine/Step.lean ====
section
/-! DEFINITION. One step of the machine: the coming rising edge of its clock (log 16). -/

namespace Sys2Proof.Machine

/-- One step: the coming edge. -/
def step (s : State) : Host.Outcome State Fault Refusal :=
  nextEdge s

/-- The state whose coming edge accepts the given bits as its command (log 6). -/
def State.withFetchWord (s : State) (nbits w : Nat) : State :=
  offerWord (tableWord nbits w) s

end Sys2Proof.Machine
end

