-- ==== Sys2Proof/Safety.lean ====
section
/-! DEFINITION. The words the statements are made in: the two ways a command ends, the kind it raises, runs of edges and of
commands, what is accepted along a run, and the invariant of the block. -/

namespace Sys2Proof.Machine

/-- A command that answers `r` and does nothing else. -/
def answered (r : Byte) (s : State) : State :=
  { s with inFlight := s.inFlight ++ [{ result := r, age := 0 }] }

/-- R94: a command on the failure path with kind `k`: its byte `b` is the answer, the one flag of `k` is set. -/
def failed (k : ErrorKind) (b : Byte) (s : State) : State :=
  { s with
    err := s.err ||| ((1 : Byte) <<< (s.params.flagBit.bit k).val)
    inFlight := s.inFlight ++ [{ result := b, age := 0 }] }

/-- R141: the kind a command raises on its operands, none if it succeeds. -/
def raises : Instr → Option ErrorKind
  | .inspect => none
  | .clear => none
  | .extract _ s l => checkField s l
  | .insert _ s l v => checkInsert s l v
  | .getbit _ i => checkIndex i
  | .setbit _ i => checkIndex i
  | .resetbit _ i => checkIndex i
  | .flipbit _ i => checkIndex i
  | .getlsb _ => none
  | .getmsb _ => none
  | .setlsb _ => none
  | .setmsb _ => none
  | .resetlsb _ => none
  | .resetmsb _ => none
  | .fliplsb _ => none
  | .flipmsb _ => none

/-- R28: what a command leaves in ERR. -/
def errAfter (fb : Config.FlagBit) (c : Instr) (err : Byte) : Byte :=
  if c = .clear then 0
  else
    match raises c with
    | some k => err ||| ((1 : Byte) <<< (fb.bit k).val)
    | none => err

/-- R31: what a command leaves of the set of kinds. -/
def kindsAfter (c : Instr) (S : ErrorKind → Bool) : ErrorKind → Bool :=
  if c = .clear then fun _ => false
  else
    match raises c with
    | some k => fun j => S j || decide (j = k)
    | none => S

/-- Commands carried out one after another, with no port between them (R48). -/
def runCommands : List Instr → State → Host.Outcome State Fault Refusal
  | [], s => .next s
  | c :: cs, s =>
    match exec c s with
    | .next t => runCommands cs t
    | .fault r => .fault r
    | .refused r => .refused r

/-- `n` edges of the clock. -/
def runSteps : Nat → State → Host.Outcome State Fault Refusal
  | 0, s => .next s
  | n + 1, s =>
    match step s with
    | .next t => runSteps n t
    | .fault r => .fault r
    | .refused r => .refused r

/-- R54: the command the coming edge accepts, if it accepts one. -/
def acceptedCommand (s : State) : Option Instr :=
  if accepts (nextInput s) s then
    match decodeWith s.params.singleBitOps (nextInput s).cmd with
    | .instr c => some c
    | .reserved _ => none
  else none

/-- R48: the commands that `n` edges accept, in acceptance order. -/
def acceptedRun : Nat → State → List Instr
  | 0, _ => []
  | n + 1, s =>
    match step s with
    | .next t => (acceptedCommand s).toList ++ acceptedRun n t
    | .fault _ => []
    | .refused _ => []

/-- No reset among the inputs of the next `n` edges. -/
def noReset (n : Nat) (s : State) : Prop :=
  ∀ i ∈ s.inputs.take n, i.rst = false

/-- R167: every response since the start, taken or still to come, in order. -/
def responses (s : State) : List Byte :=
  s.delivered ++ s.inFlight.map (·.result)

/-- R58: two command words that the block cannot tell apart: they decode alike, and an edge that offers the one ends in every
state as an edge that offers the other. -/
def SameCommand (w w' : CmdWord) : Prop :=
  (∀ singleBitOps, decodeWith singleBitOps w = decodeWith singleBitOps w') ∧
  (∀ st : State, issue w st = issue w' st) ∧
  (∀ (i : PortIn) (st : State), edge { i with cmd := w } st = edge { i with cmd := w' } st)

/-- One command carried out alone on an instance at ERR = `e`: it answers `r` (anything, for CLEAR: R82) and leaves `e'`. -/
def Answers (p : Config.Params) (e : Byte) (c : Instr) (r e' : Byte) : Prop :=
  ∃ t, exec c { State.reset with params := p, err := e } = .next t ∧ t.err = e' ∧
    (c = .clear ∨ t.inFlight = [{ result := r, age := 0 }])

/-- R48, R167: commands carried out one at a time from ERR = `e` answer `rs`, one each and in order, and leave `e'`. -/
def Serves (p : Config.Params) : Byte → List Instr → List Byte → Byte → Prop
  | e, [], [], e' => e' = e
  | e, c :: cs, r :: rs, e' => ∃ e1, Answers p e c r e1 ∧ Serves p e1 cs rs e'
  | _, [], _ :: _, _ => False
  | _, _ :: _, [], _ => False

/-- What every edge keeps: the reserved bits of ERR read 0 (R27), the block holds no more responses than it can (R167), and the
commands in flight stand in acceptance order, one accepted per edge, the youngest at least one cycle old (R166). -/
structure Inv (s : State) : Prop where
  reserved_zero : s.err &&& reservedBits s.params.flagBit = 0
  room : s.inFlight.length ≤ s.params.depth
  in_order : s.inFlight.Pairwise (fun older younger => younger.age < older.age)
  aged : ∀ f ∈ s.inFlight, 1 ≤ f.age

end Sys2Proof.Machine
end

