-- ==== Sys2Proof/Certificates/Slice0/Obligations.lean ====
section
/-! DEFINITION. The statements for the provers. Each docstring names the rule of spec/ it formalises. A state written
`{ st with … }` or `answered r st` or `failed k b st` fixes every field, so such a statement holds the command's whole frame:
every field it does not name is unchanged. The block has no memory, so no frame speaks of memory (R40).
A state carries the parameters of its instance (R6, log 17), so a statement about every state is one for every FLAG_BIT, value of
SINGLE_BIT_OPS, LATENCY and depth of the response buffer. -/

open Sys2Proof Sys2Proof.Machine

/-! ## Reset -/

/-- R30, R162, R163: after reset ERR is 0 and nothing is in flight, and the block accepts a command at once. -/
def Obligations.ResetIsReadyWithNoError : Prop :=
  State.reset.err = 0x00#8 ∧ State.reset.inFlight = [] ∧
    (∀ (p : Config.Params) (i : PortIn), i.rst = false → cmdReady i { State.reset with params := p } = true) ∧
    (∀ (p : Config.Params) (i : PortIn), i.cmdValid = false →
      (outputs i { State.reset with params := p }).rspValid = false)

/-- R160, R161: an edge with `rst` = 1 zeroes ERR, discards every command in flight without a response, and accepts no command;
`cmd_ready` and `rsp_valid` are 0; the next cycle with `rst` = 0 is out of reset; power-up is such a reset. -/
def Obligations.ResetEdgeDiscardsEverything : Prop :=
  (∀ (s : State) (i : PortIn) (rest : List PortIn),
    s.inputs = i :: rest → i.rst = true →
    (∃ t, step s = .next t ∧ t.err = 0x00#8 ∧ t.inFlight = [] ∧ t.delivered = s.delivered ∧ t.inputs = rest ∧
      ∀ j : PortIn, j.rst = false → cmdReady j t = true) ∧
    accepts i s = false ∧ (outputs i s).cmdReady = false ∧ (outputs i s).rspValid = false) ∧
  (State.reset.err = 0x00#8 ∧ State.reset.inFlight = [])

/-! ## Encoding -/

/-- R55, R57: words written out from the spec's encoding decode to the commands they stand for, on an instance that has the
single-bit group. -/
def Obligations.SpecWordsDecode : Prop :=
  decodeWith true 0x00FFFFFFFF#40 = .instr .inspect ∧
  decodeWith true 0x0100000000#40 = .instr .clear ∧
  decodeWith true 0x0200030155#40 = .instr (.extract 0x55 1 3) ∧
  decodeWith true 0x0306030155#40 = .instr (.insert 0x55 1 3 6) ∧
  decodeWith true 0x1000000855#40 = .instr (.getbit 0x55 8) ∧
  decodeWith true 0x140000FF55#40 = .instr (.getlsb 0x55) ∧
  decodeWith true 0x1B000000AA#40 = .instr (.flipmsb 0xAA) ∧
  decodeWith true 0x1C00000055#40 = .reserved 0x1C

/-- R57, R61: decoding the encoding of a command that exists on the instance gives that command back, with every operand at
every value. -/
def Obligations.DecodeOfEncode : Prop :=
  ∀ (singleBitOps : Bool) (c : Instr), c.wellFormedWith singleBitOps = true →
    decodeWith singleBitOps (encode c) = .instr c

/-- R57, R58: the other direction: re-encoding a decoded command keeps the opcode and every field the command reads, and writes
0 in every field it ignores. -/
def Obligations.EncodeOfDecode : Prop :=
  ∀ (singleBitOps : Bool) (w : CmdWord) (c : Instr), decodeWith singleBitOps w = .instr c →
    opField (encode c) = opField w ∧
    bField (encode c) = (if (opField w).toNat < 2 then 0 else bField w) ∧
    sField (encode c) = (if (opField w).toNat < 2 ∨ 0x14 ≤ (opField w).toNat then 0 else sField w) ∧
    lField (encode c) = (if (opField w).toNat = 2 ∨ (opField w).toNat = 3 then lField w else 0) ∧
    vField (encode c) = (if (opField w).toNat = 3 then vField w else 0)

/-- R58: the fields a command does not read change neither its result nor ERR: a word that differs in them alone decodes alike,
and is carried out alike from every state, at the port too; the encoder writes them as 0. -/
def Obligations.UnreadFieldsIgnored : Prop :=
  (∀ c : Instr,
    ((opField (encode c)).toNat ≠ 3 → vField (encode c) = 0) ∧
    ((opField (encode c)).toNat ≠ 2 → (opField (encode c)).toNat ≠ 3 → lField (encode c) = 0) ∧
    ((opField (encode c)).toNat < 2 ∨ 0x14 ≤ (opField (encode c)).toNat → sField (encode c) = 0) ∧
    ((opField (encode c)).toNat < 2 → bField (encode c) = 0)) ∧
  ∀ (op v l s b v' l' s' b' : Byte),
    (op.toNat < 2 → SameCommand (cmdWord op v l s b) (cmdWord op v' l' s' b')) ∧
    (op.toNat = 2 → SameCommand (cmdWord op v l s b) (cmdWord op v' l s b)) ∧
    (0x10 ≤ op.toNat → op.toNat ≤ 0x13 → SameCommand (cmdWord op v l s b) (cmdWord op v' l' s b)) ∧
    (0x14 ≤ op.toNat → op.toNat ≤ 0x1B → SameCommand (cmdWord op v l s b) (cmdWord op v' l' s' b))

/-- R57, R59, R60: decoding is total: it names a reserved opcode exactly for the reserved values, and gives a command for every
other; an edge that accepts a reserved word refuses it by name. -/
def Obligations.ReservedOpcodesRefused : Prop :=
  (∀ (sb : Bool) (w : CmdWord),
    (decodeWith sb w = .reserved (opField w) ↔
      ((0x04 ≤ (opField w).toNat ∧ (opField w).toNat ≤ 0x0F) ∨ 0x1C ≤ (opField w).toNat ∨
        (0x10 ≤ (opField w).toNat ∧ (opField w).toNat ≤ 0x1B ∧ sb = false))) ∧
    (decodeWith sb w = .reserved (opField w) ∨ ∃ c, decodeWith sb w = .instr c)) ∧
  (∀ (s : State) (i : PortIn) (rest : List PortIn) (op : Byte),
    s.inputs = i :: rest → accepts i s = true → decodeWith s.params.singleBitOps i.cmd = .reserved op →
    step s = .refused (.reservedOpcode op))

/-- R61: the assembler rejects a line with an operand outside 0..255, and assembles each line of the syntax, its operands in
their written order, to `(op << 32) | (v << 24) | (l << 16) | (s << 8) | b` with the fields it does not read 0. The line is its
mnemonic and the numbers its numerals stand for, and a line that has a wrong number of operands too is rejected for the operand
out of range: naming that error first is the model's choice, an order the spec does not give (log 13). -/
def Obligations.AssemblerEncodesEveryLine : Prop :=
  (∀ (m : Mnemonic) (operands : List Nat), (∃ n ∈ operands, 255 < n) →
    assemble m operands = .error .operandOutOfRange) ∧
  (∀ op v l s b : Byte, (cmdWord op v l s b).toNat =
    (op.toNat <<< 32) ||| (v.toNat <<< 24) ||| (l.toNat <<< 16) ||| (s.toNat <<< 8) ||| b.toNat) ∧
  (∀ b s l v i : Nat, b ≤ 255 → s ≤ 255 → l ≤ 255 → v ≤ 255 → i ≤ 255 →
    (assemble .inspect []).map (·.toNat) = .ok ((0x00 <<< 32)) ∧
    (assemble .clear []).map (·.toNat) = .ok ((0x01 <<< 32)) ∧
    (assemble .extract [b, s, l]).map (·.toNat) = .ok ((0x02 <<< 32) ||| (l <<< 16) ||| (s <<< 8) ||| b) ∧
    (assemble .insert [b, s, l, v]).map (·.toNat) = .ok ((0x03 <<< 32) ||| (v <<< 24) ||| (l <<< 16) ||| (s <<< 8) ||| b) ∧
    (assemble .getbit [b, i]).map (·.toNat) = .ok ((0x10 <<< 32) ||| (i <<< 8) ||| b) ∧
    (assemble .setbit [b, i]).map (·.toNat) = .ok ((0x11 <<< 32) ||| (i <<< 8) ||| b) ∧
    (assemble .resetbit [b, i]).map (·.toNat) = .ok ((0x12 <<< 32) ||| (i <<< 8) ||| b) ∧
    (assemble .flipbit [b, i]).map (·.toNat) = .ok ((0x13 <<< 32) ||| (i <<< 8) ||| b) ∧
    (assemble .getlsb [b]).map (·.toNat) = .ok ((0x14 <<< 32) ||| b) ∧
    (assemble .getmsb [b]).map (·.toNat) = .ok ((0x15 <<< 32) ||| b) ∧
    (assemble .setlsb [b]).map (·.toNat) = .ok ((0x16 <<< 32) ||| b) ∧
    (assemble .setmsb [b]).map (·.toNat) = .ok ((0x17 <<< 32) ||| b) ∧
    (assemble .resetlsb [b]).map (·.toNat) = .ok ((0x18 <<< 32) ||| b) ∧
    (assemble .resetmsb [b]).map (·.toNat) = .ok ((0x19 <<< 32) ||| b) ∧
    (assemble .fliplsb [b]).map (·.toNat) = .ok ((0x1A <<< 32) ||| b) ∧
    (assemble .flipmsb [b]).map (·.toNat) = .ok ((0x1B <<< 32) ||| b)) ∧
  assemble .insert [0b01010101, 1, 3, 6] = .ok 0x0306030155#40

/-- R43: under any byte order that carries each byte of the word once, the block sees the word that was sent. -/
def Obligations.BusCarriesWordUnderAnyByteOrder : Prop :=
  ∀ (order : Fin 5 → Fin 5), (∀ j k, order j = order k → j = k) →
    ∀ w : CmdWord, ofBusBytes order (busBytes order w) = some w

/-! ## The step -/

/-- R48, R54: an edge that accepts a command runs it: where the coming input is accepted (`cmd_valid` and `cmd_ready` both 1) and
its word decodes to a command, the step is `exec` of that command on the state whose input is consumed, followed by what the edge
adds, the response half and the cycle. When `cmd_ready` is 1 is FullBlockAcceptsNothing's to say (log 8). -/
def Obligations.StepRunsDecodedCommand : Prop :=
  ∀ (s : State) (i : PortIn) (rest : List PortIn) (c : Instr),
    s.inputs = i :: rest → accepts i s = true → decodeWith s.params.singleBitOps i.cmd = .instr c →
    ∃ t, exec c { s with inputs := rest } = .next t ∧ step s = .next (finishEdge i t) ∧
      (finishEdge i t).err = t.err ∧ (finishEdge i t).inputs = t.inputs

/-- R54: what an edge adds after the command: where a response is on offer and `rsp_ready` is 1, the oldest response is taken;
a cycle passes for every command still in flight; nothing else changes but the model's own count of draws (log 4). -/
def Obligations.EdgeTakesOfferedResponse : Prop :=
  ∀ (i : PortIn) (s : State),
    (∀ r, offered s = some r → i.rspReady = true →
      finishEdge i s =
        { s with
          inFlight := s.inFlight.tail.map (fun f => { f with age := f.age + 1 })
          delivered := s.delivered ++ [r], draws := s.draws + 1 }) ∧
    ((offered s = none ∨ i.rspReady = false) →
      finishEdge i s =
        { s with
          inFlight := s.inFlight.map (fun f => { f with age := f.age + 1 }), draws := s.draws + 1 })

/-- R54, at the ports, for a state with any number of commands in flight. A command is accepted exactly where `cmd_valid` and
`cmd_ready` are both 1. An edge that ends in a next state delivers the byte on `rsp_data` exactly where `rsp_valid` and
`rsp_ready` are both 1, and else nothing; without reset, one response is added for an accepted command and none otherwise, and
the delivered one is that of the oldest command: the first of those in flight, the accepted one's last among them. An edge fails
to end in a next state only where it accepts a reserved word (R59). -/
def Obligations.PortsHandshake : Prop :=
  (∀ (i : PortIn) (s : State), accepts i s = (i.cmdValid && (outputs i s).cmdReady)) ∧
  (∀ s : State,
    (∃ t, step s = .next t) ∨
    (accepts (nextInput s) s = true ∧
      decodeWith s.params.singleBitOps (nextInput s).cmd = .reserved (opField (nextInput s).cmd))) ∧
  (∀ s t : State, step s = .next t →
    t.delivered = s.delivered ++
      (if (outputs (nextInput s) s).rspValid = true ∧ (nextInput s).rspReady = true
        then [(outputs (nextInput s) s).rspData] else []) ∧
    ((nextInput s).rst = false →
      ∃ new : List Byte, new.length = (if accepts (nextInput s) s then 1 else 0) ∧
        ((outputs (nextInput s) s).rspValid = true →
          (s.inFlight.map (·.result) ++ new).head? = some (outputs (nextInput s) s).rspData) ∧
        t.inFlight.map (·.result) =
          (if (outputs (nextInput s) s).rspValid = true ∧ (nextInput s).rspReady = true
            then (s.inFlight.map (·.result) ++ new).tail else s.inFlight.map (·.result) ++ new)))

/-- R47, R54, R95, R140: every command completes with a next state and exactly one response; ERR is left as R28 says; nothing
else changes but the model's own count of draws, and that only by CLEAR (log 4). -/
def Obligations.EveryCommandAnswersOnce : Prop :=
  ∀ (c : Instr) (st : State), ∃ (r : Byte) (d : Nat),
    exec c st = .next { st with
      err := errAfter st.params.flagBit c st.err, inFlight := st.inFlight ++ [{ result := r, age := 0 }], draws := d } ∧
    (c ≠ .clear → d = st.draws)

/-! ## The Error State -/

/-- R81: INSPECT, whatever its ignored fields, answers ERR and changes nothing. -/
def Obligations.InspectReturnsErr : Prop :=
  ∀ (sb : Bool) (v l s b : Byte) (st : State),
    decodeWith sb (cmdWord 0x00 v l s b) = .instr .inspect ∧
    exec .inspect st = .next (answered st.err st)

/-- R82: CLEAR, whatever its ignored fields, zeroes ERR and answers some byte, which nothing here constrains; it advances the
model's own count of draws (log 4). -/
def Obligations.ClearZeroesErr : Prop :=
  ∀ (sb : Bool) (v l s b : Byte) (st : State),
    decodeWith sb (cmdWord 0x01 v l s b) = .instr .clear ∧
    ∃ r : Byte, exec .clear st = .next { st with
      err := 0x00#8, inFlight := st.inFlight ++ [{ result := r, age := 0 }], draws := st.draws + 1 }

/-- R80: accumulating a kind sets its flag, leaves every other bit of ERR as it was, and changes nothing where the flag is
already set; it is the only way a command turns a bit of ERR to 1, and a command does it at most once. -/
def Obligations.AccumulateSetsOneFlag : Prop :=
  (∀ (k : ErrorKind) (st : State),
    accumulate k st = { st with err := st.err ||| ((1 : Byte) <<< (st.params.flagBit.bit k).val) } ∧
    (∀ j : Nat, (accumulate k st).err.getLsbD j = (st.err.getLsbD j || decide (j = (st.params.flagBit.bit k).val))) ∧
    (st.err.getLsbD (st.params.flagBit.bit k).val = true → accumulate k st = st)) ∧
  (∀ (c : Instr) (st : State), ∃ t, exec c st = .next t ∧
    ∀ j : Nat, t.err.getLsbD j = true → st.err.getLsbD j = false →
      ∃ k, raises c = some k ∧ t.err = (accumulate k st).err)

/-- R26: FLAG_BIT is any injective assignment of the kinds to bits of ERR, and only such; each flag is a single bit. -/
def Obligations.FlagsAreDistinctSingleBits : Prop :=
  (∀ (fb : Config.FlagBit) (j k : ErrorKind), fb.bit j = fb.bit k → j = k) ∧
  (∀ f : ErrorKind → Fin 8, (∀ j k, f j = f k → j = k) → ∃ fb : Config.FlagBit, ∀ k, fb.bit k = f k) ∧
  (∀ (fb : Config.FlagBit) (k : ErrorKind) (j : Nat), (flagMask fb k).getLsbD j = decide (j = (fb.bit k).val))

/-- R25: the places of the flags in ERR, and the reserved bits 7:5, under the default of FLAG_BIT, which the state after reset
takes. That it does is the model's choice of the spec's default (log 1). -/
def Obligations.DefaultErrLayout : Prop :=
  State.reset.params.flagBit = Config.flagBit ∧
  flagMask Config.flagBit .indexOutOfRange = 0x01#8 ∧ flagMask Config.flagBit .valueOverflow = 0x02#8 ∧
  flagMask Config.flagBit .lengthInvalid = 0x04#8 ∧ flagMask Config.flagBit .startBitInvalid = 0x08#8 ∧
  flagMask Config.flagBit .totalLengthExceeded = 0x10#8 ∧ reservedBits Config.flagBit = 0xE0#8

/-- R27: no command sets a reserved bit of ERR, INSPECT answers them as 0, and CLEAR leaves them 0. -/
def Obligations.ReservedBitsStayZero : Prop :=
  ∀ (c : Instr) (st : State), st.err &&& reservedBits st.params.flagBit = 0 →
    (∃ t, exec c st = .next t ∧ t.params = st.params ∧ t.err &&& reservedBits t.params.flagBit = 0) ∧
    (∃ r, exec .inspect st = .next (answered r st) ∧ r &&& reservedBits st.params.flagBit = 0)

/-- R28: an edge changes ERR in exactly three ways: a command on the failure path sets one flag, CLEAR writes 0, reset writes
0. -/
def Obligations.ErrChangesInThreeWays : Prop :=
  ∀ (s t : State), step s = .next t →
    ((nextInput s).rst = true ∧ t.err = 0x00#8) ∨
    ((nextInput s).rst = false ∧ acceptedCommand s = some .clear ∧ t.err = 0x00#8) ∨
    ((nextInput s).rst = false ∧ ∃ c k, acceptedCommand s = some c ∧ raises c = some k ∧
      t.err = s.err ||| ((1 : Byte) <<< (s.params.flagBit.bit k).val)) ∨
    ((nextInput s).rst = false ∧ (∀ c, acceptedCommand s = some c → c ≠ .clear ∧ raises c = none) ∧ t.err = s.err)

/-- R29: a flag once set stays set along every run without a CLEAR and without a reset, and INSPECT reads ERR without changing
it. -/
def Obligations.FlagsStickyUntilClearOrReset : Prop :=
  (∀ (n : Nat) (s t : State), runSteps n s = .next t → noReset n s →
    Instr.clear ∉ acceptedRun n s → ∀ j : Nat, s.err.getLsbD j = true → t.err.getLsbD j = true) ∧
  (∀ st : State, exec .inspect st = .next (answered st.err st))

/-- R31: for every FLAG_BIT, the value INSPECT returns determines the set of kinds; and along every
command the set view and the bit view of ERR agree, the response to INSPECT included. -/
def Obligations.KindSetViewAgrees : Prop :=
  (∀ (fb : Config.FlagBit) (S T : ErrorKind → Bool), encodeKinds fb S = encodeKinds fb T → S = T) ∧
  (∀ (c : Instr) (S : ErrorKind → Bool) (st : State), st.err = encodeKinds st.params.flagBit S →
    (∃ t, exec c st = .next t ∧ t.err = encodeKinds st.params.flagBit (kindsAfter c S)) ∧
    exec .inspect st = .next (answered (encodeKinds st.params.flagBit S) st)) ∧
  (∀ st : State, (resetEdge st).err = encodeKinds st.params.flagBit (fun _ => false)) ∧
  State.reset.err = encodeKinds State.reset.params.flagBit (fun _ => false)

/-- R83: after two failing commands of different kinds, INSPECT answers ERR with both flags; after CLEAR it answers 0. -/
def Obligations.TwoFailuresUniteThenClear : Prop :=
  ∀ (c1 c2 : Instr) (k1 k2 : ErrorKind) (st : State), raises c1 = some k1 → raises c2 = some k2 → k1 ≠ k2 →
    ∃ s1 s2 s3, exec c1 st = .next s1 ∧ exec c2 s1 = .next s2 ∧
      exec .inspect s2 = .next (answered
        (st.err ||| ((1 : Byte) <<< (st.params.flagBit.bit k1).val) ||| ((1 : Byte) <<< (st.params.flagBit.bit k2).val)) s2) ∧
      exec .clear s2 = .next s3 ∧ exec .inspect s3 = .next (answered 0x00#8 s3)

/-- R143: the flags that commands other than CLEAR leave do not depend on their order. -/
def Obligations.FlagUnionIgnoresOrder : Prop :=
  ∀ (cs ds : List Instr) (st : State), cs.Perm ds → Instr.clear ∉ cs →
    ∃ t u, runCommands cs st = .next t ∧ runCommands ds st = .next u ∧ t.err = u.err ∧
      ∀ j : Nat, t.err.getLsbD j =
        (st.err.getLsbD j || cs.any (fun c => (raises c).any (fun k => decide ((st.params.flagBit.bit k).val = j))))

/-- R47: a command that passes its checks leaves ERR, one that fails sets exactly one flag, CLEAR sets ERR to 0, no command
changes anything else but the model's own count of draws (log 4), and every command is idempotent on ERR. -/
def Obligations.CommandsIdempotentOnErr : Prop :=
  ∀ (c : Instr) (st : State), ∃ (r e : Byte) (d : Nat) (u : State),
    exec c st = .next { st with err := e, inFlight := st.inFlight ++ [{ result := r, age := 0 }], draws := d } ∧
    (c ≠ .clear → raises c = none → e = st.err) ∧
    (∀ k, raises c = some k → e = st.err ||| ((1 : Byte) <<< (st.params.flagBit.bit k).val)) ∧
    (c = .clear → e = 0x00#8) ∧
    exec c { st with err := e, inFlight := st.inFlight ++ [{ result := r, age := 0 }], draws := d } = .next u ∧
    u.err = e

/-- R48: a command's response depends only on its operands, and INSPECT's on ERR besides. -/
def Obligations.ResponseDependsOnOperandsAlone : Prop :=
  ∀ (c : Instr) (st st' : State), c ≠ .clear → (c = .inspect → st.err = st'.err) →
    ∃ (r : Byte) (t t' : State), exec c st = .next t ∧ exec c st' = .next t' ∧
      t.inFlight = st.inFlight ++ [{ result := r, age := 0 }] ∧
      t'.inFlight = st'.inFlight ++ [{ result := r, age := 0 }]

/-! ## Validation and the failure path -/

/-- R90, R91, R94, R110, R142: the first check that fails, in the order StartBitInvalid, LengthInvalid, TotalLengthExceeded,
ValueOverflow, alone decides: the byte operand is answered and exactly that kind's flag is set; where no check fails the command answers and
leaves ERR. -/
def Obligations.FirstFailingCheckAlone : Prop :=
  ∀ (b s l v i : Byte) (st : State),
    (8 ≤ s.toNat →
      exec (.extract b s l) st = .next (failed .startBitInvalid b st) ∧
      exec (.insert b s l v) st = .next (failed .startBitInvalid b st)) ∧
    (s.toNat < 8 → (l.toNat = 0 ∨ 8 < l.toNat) →
      exec (.extract b s l) st = .next (failed .lengthInvalid b st) ∧
      exec (.insert b s l v) st = .next (failed .lengthInvalid b st)) ∧
    (s.toNat < 8 → 1 ≤ l.toNat → l.toNat ≤ 8 → 8 < s.toNat + l.toNat →
      exec (.extract b s l) st = .next (failed .totalLengthExceeded b st) ∧
      exec (.insert b s l v) st = .next (failed .totalLengthExceeded b st)) ∧
    (s.toNat < 8 → 1 ≤ l.toNat → l.toNat ≤ 8 → s.toNat + l.toNat ≤ 8 → 2 ^ l.toNat - 1 < v.toNat →
      exec (.insert b s l v) st = .next (failed .valueOverflow b st)) ∧
    (8 ≤ i.toNat →
      exec (.getbit b i) st = .next (failed .indexOutOfRange b st) ∧
      exec (.setbit b i) st = .next (failed .indexOutOfRange b st) ∧
      exec (.resetbit b i) st = .next (failed .indexOutOfRange b st) ∧
      exec (.flipbit b i) st = .next (failed .indexOutOfRange b st)) ∧
    (1 ≤ l.toNat → s.toNat < 8 → s.toNat + l.toNat ≤ 8 →
      (∃ r, exec (.extract b s l) st = .next (answered r st)) ∧
      (v.toNat ≤ 2 ^ l.toNat - 1 → ∃ r, exec (.insert b s l v) st = .next (answered r st))) ∧
    (l.toNat = 8 → v.toNat ≤ 2 ^ l.toNat - 1) ∧
    (i.toNat ≤ 7 →
      (∃ r, exec (.getbit b i) st = .next (answered r st)) ∧ (∃ r, exec (.setbit b i) st = .next (answered r st)) ∧
      (∃ r, exec (.resetbit b i) st = .next (answered r st)) ∧ (∃ r, exec (.flipbit b i) st = .next (answered r st)))

/-- R93: for a valid field, `low_mask(l)` is `2^l - 1`, the run of `l` bits from bit 0, and `field_mask(s, l)` has exactly the
bits of the field and is at most 0xFF. -/
def Obligations.MasksMarkTheField : Prop :=
  ∀ s l : Nat, 1 ≤ l → l ≤ 8 → s + l ≤ 8 →
    lowMask l = 2 ^ l - 1 ∧ fieldMask s l ≤ 0xFF ∧
    (∀ j, (lowMask l).testBit j = decide (j < l)) ∧
    (∀ j, (fieldMask s l).testBit j = (decide (s ≤ j) && decide (j < s + l)))

/-- R10: the values of the commands on operands that pass their checks lie in 0..255 before they are cut to 8 bits, so the cut
discards nothing. -/
def Obligations.ResultsNeverOverflow : Prop :=
  (∀ b s l v : Nat, b < 256 → 1 ≤ l → s + l ≤ 8 → v ≤ 2 ^ l - 1 →
    extractValue b s l < 2 ^ l ∧ extractValue b s l ≤ 255 ∧ v <<< s < 2 ^ (s + l) ∧ insertValue b s l v ≤ 255) ∧
  (∀ b i : Nat, b < 256 → i ≤ 7 →
    getBitValue b i ≤ 1 ∧ setBitValue b i ≤ 255 ∧ resetBitValue b i ≤ 255 ∧ flipBitValue b i ≤ 255) ∧
  (∀ n : Nat, n ≤ 255 → (resultByte n).toNat = n)

/-! ## The Bit-Field Engine -/

/-- R96, R42: EXTRACT, whatever its field v: on a valid field it answers `(b >> s) & low_mask(l)`, whose bit j is bit s+j of b
for j < l and 0 above, and changes nothing else; on an invalid one it fails. -/
def Obligations.ExtractReadsField : Prop :=
  ∀ (sb : Bool) (v l s b : Byte) (st : State),
    decodeWith sb (cmdWord 0x02 v l s b) = .instr (.extract b s l) ∧
    (1 ≤ l.toNat → s.toNat < 8 → s.toNat + l.toNat ≤ 8 →
      ∃ r : Byte, exec (.extract b s l) st = .next (answered r st) ∧
        r.toNat = (b.toNat >>> s.toNat) &&& (0xFF >>> (8 - l.toNat)) ∧ r.toNat < 2 ^ l.toNat ∧
        ∀ j : Nat, r.getLsbD j = (decide (j < l.toNat) && b.getLsbD (s.toNat + j))) ∧
    (¬ (1 ≤ l.toNat ∧ s.toNat < 8 ∧ s.toNat + l.toNat ≤ 8) →
      ∃ k, (k = .startBitInvalid ∨ k = .lengthInvalid ∨ k = .totalLengthExceeded) ∧
        exec (.extract b s l) st = .next (failed k b st))

/-- R97, R42: INSERT: on a valid field and a value that fits it answers the byte whose bits s to s+l-1 are those of v and whose
other bits are those of b, and changes nothing else; otherwise it fails. -/
def Obligations.InsertWritesField : Prop :=
  ∀ (sb : Bool) (v l s b : Byte) (st : State),
    decodeWith sb (cmdWord 0x03 v l s b) = .instr (.insert b s l v) ∧
    (1 ≤ l.toNat → s.toNat < 8 → s.toNat + l.toNat ≤ 8 → v.toNat ≤ 2 ^ l.toNat - 1 →
      ∃ r : Byte, exec (.insert b s l v) st = .next (answered r st) ∧
        r.toNat = (b.toNat &&& (0xFF ^^^ (((1 <<< l.toNat) - 1) <<< s.toNat))) ||| (v.toNat <<< s.toNat) ∧
        ∀ j : Nat, r.getLsbD j =
          (if s.toNat ≤ j ∧ j < s.toNat + l.toNat then v.getLsbD (j - s.toNat) else b.getLsbD j)) ∧
    (¬ (1 ≤ l.toNat ∧ s.toNat < 8 ∧ s.toNat + l.toNat ≤ 8 ∧ v.toNat ≤ 2 ^ l.toNat - 1) →
      ∃ k, k ≠ .indexOutOfRange ∧ exec (.insert b s l v) st = .next (failed k b st))

/-- R98: what INSERT writes, EXTRACT of the same field reads back, and neither changes ERR. -/
def Obligations.ExtractOfInsertIsValue : Prop :=
  ∀ (b s l v : Byte) (st : State), 1 ≤ l.toNat → s.toNat < 8 → s.toNat + l.toNat ≤ 8 → v.toNat ≤ 2 ^ l.toNat - 1 →
    ∃ r, exec (.insert b s l v) st = .next (answered r st) ∧
      exec (.extract r s l) (answered r st) = .next (answered v (answered r st))

/-- R99: on a valid field, whatever the value, every bit of INSERT's result outside the field is that bit of b. -/
def Obligations.InsertKeepsBitsOutsideField : Prop :=
  ∀ (b s l v : Byte) (st : State), 1 ≤ l.toNat → s.toNat < 8 → s.toNat + l.toNat ≤ 8 →
    ∃ (r : Byte) (t : State), exec (.insert b s l v) st = .next t ∧
      t.inFlight = st.inFlight ++ [{ result := r, age := 0 }] ∧
      ∀ j : Nat, (j < s.toNat ∨ s.toNat + l.toNat ≤ j) → r.getLsbD j = b.getLsbD j

/-- R100: INSERT done again on its own result returns that result, and leaves ERR as one INSERT does, on every operand. -/
def Obligations.InsertIdempotent : Prop :=
  ∀ (b s l v : Byte) (st : State), ∃ (r : Byte) (t u : State),
    exec (.insert b s l v) st = .next t ∧ t.inFlight = st.inFlight ++ [{ result := r, age := 0 }] ∧
    exec (.insert r s l v) t = .next u ∧ u.inFlight = t.inFlight ++ [{ result := r, age := 0 }] ∧ u.err = t.err

/-! ## The single-bit commands -/

/-- R111: GETBIT, whatever its fields v and l: on an index up to 7 it answers bit i of b as 0 or 1 and changes nothing else; on
a larger one it fails; up to 7 it is EXTRACT of the one-bit field. -/
def Obligations.GetbitReadsBit : Prop :=
  ∀ (v l i b : Byte) (st : State),
    decodeWith true (cmdWord 0x10 v l i b) = .instr (.getbit b i) ∧
    (i.toNat ≤ 7 → exec (.getbit b i) st = .next (answered (if b.getLsbD i.toNat then 1 else 0) st) ∧
      exec (.getbit b i) st = exec (.extract b i 1) st) ∧
    (8 ≤ i.toNat → exec (.getbit b i) st = .next (failed .indexOutOfRange b st))

/-- R112: SETBIT: on an index up to 7 it answers `b | (1 << i)`: bit i is 1, every other bit is b's; on a larger one it
fails; up to 7 it is INSERT of 1 in the one-bit field. -/
def Obligations.SetbitSetsBit : Prop :=
  ∀ (v l i b : Byte) (st : State),
    decodeWith true (cmdWord 0x11 v l i b) = .instr (.setbit b i) ∧
    (i.toNat ≤ 7 → ∃ r : Byte, exec (.setbit b i) st = .next (answered r st) ∧
      r.toNat = b.toNat ||| (1 <<< i.toNat) ∧
      (∀ j : Nat, r.getLsbD j = (decide (j = i.toNat) || b.getLsbD j)) ∧
      exec (.setbit b i) st = exec (.insert b i 1 1) st) ∧
    (8 ≤ i.toNat → exec (.setbit b i) st = .next (failed .indexOutOfRange b st))

/-- R113: RESETBIT: on an index up to 7 it answers `b & ~8 (1 << i)`: bit i is 0, every other bit is b's; on a larger one it
fails; up to 7 it is INSERT of 0 in the one-bit field. -/
def Obligations.ResetbitClearsBit : Prop :=
  ∀ (v l i b : Byte) (st : State),
    decodeWith true (cmdWord 0x12 v l i b) = .instr (.resetbit b i) ∧
    (i.toNat ≤ 7 → ∃ r : Byte, exec (.resetbit b i) st = .next (answered r st) ∧
      r.toNat = b.toNat &&& (0xFF ^^^ (1 <<< i.toNat)) ∧
      (∀ j : Nat, r.getLsbD j = (!decide (j = i.toNat) && b.getLsbD j)) ∧
      exec (.resetbit b i) st = exec (.insert b i 1 0) st) ∧
    (8 ≤ i.toNat → exec (.resetbit b i) st = .next (failed .indexOutOfRange b st))

/-- R114: FLIPBIT: on an index up to 7 it answers `b ^ (1 << i)`: bit i is inverted, every other bit is b's, and flipping again
gives b; up to 7 it is INSERT of the inverted bit; on a larger one it fails. That flip inverts is the spec's own reading (log 7). -/
def Obligations.FlipbitInvertsBit : Prop :=
  ∀ (v l i b : Byte) (st : State),
    decodeWith true (cmdWord 0x13 v l i b) = .instr (.flipbit b i) ∧
    (i.toNat ≤ 7 → ∃ r : Byte, exec (.flipbit b i) st = .next (answered r st) ∧
      r.toNat = b.toNat ^^^ (1 <<< i.toNat) ∧
      (∀ j : Nat, r.getLsbD j = (decide (j = i.toNat) ^^ b.getLsbD j)) ∧
      exec (.flipbit r i) st = .next (answered b st) ∧
      exec (.flipbit b i) st = exec (.insert b i 1 (if b.getLsbD i.toNat then 0 else 1)) st) ∧
    (8 ≤ i.toNat → exec (.flipbit b i) st = .next (failed .indexOutOfRange b st))

/-- R116, R117: GETLSB and GETMSB, whatever their ignored fields, answer bit 0 and bit 7 of b as 0 or 1 and change nothing
else, as the indexed command at 0 and 7 does. -/
def Obligations.GetFixedBit : Prop :=
  ∀ (v l s b : Byte) (st : State),
    decodeWith true (cmdWord 0x14 v l s b) = .instr (.getlsb b) ∧
    decodeWith true (cmdWord 0x15 v l s b) = .instr (.getmsb b) ∧
    exec (.getlsb b) st = .next (answered (if b.getLsbD 0 then 1 else 0) st) ∧
    exec (.getmsb b) st = .next (answered (if b.getLsbD 7 then 1 else 0) st) ∧
    exec (.getlsb b) st = exec (.getbit b 0) st ∧ exec (.getmsb b) st = exec (.getbit b 7) st

/-- R118, R119: SETLSB and SETMSB answer `b | 0x01` and `b | 0x80`: that bit is 1, every other bit is b's; nothing else
changes; each is the indexed command at 0 or 7. -/
def Obligations.SetFixedBit : Prop :=
  ∀ (v l s b : Byte) (st : State),
    decodeWith true (cmdWord 0x16 v l s b) = .instr (.setlsb b) ∧
    decodeWith true (cmdWord 0x17 v l s b) = .instr (.setmsb b) ∧
    (∃ r : Byte, exec (.setlsb b) st = .next (answered r st) ∧ r.toNat = b.toNat ||| 0x01 ∧
      ∀ j : Nat, r.getLsbD j = (decide (j = 0) || b.getLsbD j)) ∧
    (∃ r : Byte, exec (.setmsb b) st = .next (answered r st) ∧ r.toNat = b.toNat ||| 0x80 ∧
      ∀ j : Nat, r.getLsbD j = (decide (j = 7) || b.getLsbD j)) ∧
    exec (.setlsb b) st = exec (.setbit b 0) st ∧ exec (.setmsb b) st = exec (.setbit b 7) st

/-- R120, R121: RESETLSB and RESETMSB answer `b & 0xFE` and `b & 0x7F`: that bit is 0, every other bit is b's; nothing else
changes; each is the indexed command at 0 or 7. -/
def Obligations.ResetFixedBit : Prop :=
  ∀ (v l s b : Byte) (st : State),
    decodeWith true (cmdWord 0x18 v l s b) = .instr (.resetlsb b) ∧
    decodeWith true (cmdWord 0x19 v l s b) = .instr (.resetmsb b) ∧
    (∃ r : Byte, exec (.resetlsb b) st = .next (answered r st) ∧ r.toNat = b.toNat &&& 0xFE ∧
      ∀ j : Nat, r.getLsbD j = (!decide (j = 0) && b.getLsbD j)) ∧
    (∃ r : Byte, exec (.resetmsb b) st = .next (answered r st) ∧ r.toNat = b.toNat &&& 0x7F ∧
      ∀ j : Nat, r.getLsbD j = (!decide (j = 7) && b.getLsbD j)) ∧
    exec (.resetlsb b) st = exec (.resetbit b 0) st ∧ exec (.resetmsb b) st = exec (.resetbit b 7) st

/-- R122, R123: FLIPLSB and FLIPMSB answer `b ^ 0x01` and `b ^ 0x80`: that bit is inverted, every other bit is b's; nothing
else changes; each is the indexed command at 0 or 7. That flip inverts is the spec's own reading (log 7). -/
def Obligations.FlipFixedBit : Prop :=
  ∀ (v l s b : Byte) (st : State),
    decodeWith true (cmdWord 0x1A v l s b) = .instr (.fliplsb b) ∧
    decodeWith true (cmdWord 0x1B v l s b) = .instr (.flipmsb b) ∧
    (∃ r : Byte, exec (.fliplsb b) st = .next (answered r st) ∧ r.toNat = b.toNat ^^^ 0x01 ∧
      ∀ j : Nat, r.getLsbD j = (decide (j = 0) ^^ b.getLsbD j)) ∧
    (∃ r : Byte, exec (.flipmsb b) st = .next (answered r st) ∧ r.toNat = b.toNat ^^^ 0x80 ∧
      ∀ j : Nat, r.getLsbD j = (decide (j = 7) ^^ b.getLsbD j)) ∧
    exec (.fliplsb b) st = exec (.flipbit b 0) st ∧ exec (.flipmsb b) st = exec (.flipbit b 7) st

/-- R115: each fixed-position command has no failure path, never writes ERR, ignores fields v, l and s, and behaves as the
indexed command of its operation at position 0 or 7. -/
def Obligations.FixedPositionIsIndexed : Prop :=
  ∀ (b : Byte) (st : State) (fixed indexed : Instr),
    (fixed, indexed) ∈
      [(Instr.getlsb b, Instr.getbit b 0), (.getmsb b, .getbit b 7), (.setlsb b, .setbit b 0), (.setmsb b, .setbit b 7),
       (.resetlsb b, .resetbit b 0), (.resetmsb b, .resetbit b 7), (.fliplsb b, .flipbit b 0), (.flipmsb b, .flipbit b 7)] →
    raises fixed = none ∧ (∃ r, exec fixed st = .next (answered r st)) ∧ exec fixed st = exec indexed st ∧
    ∀ v l s : Byte, decodeWith true (cmdWord (opField (encode fixed)) v l s b) = .instr fixed

/-- R124: set, reset and get are one-bit field commands: for an index up to 7 they agree, ERR included; for a larger one they
agree on the response and differ in the flag they set. -/
def Obligations.SingleBitIsOneBitField : Prop :=
  ∀ (b i : Byte) (st : State),
    (i.toNat ≤ 7 →
      exec (.getbit b i) st = exec (.extract b i 1) st ∧
      exec (.setbit b i) st = exec (.insert b i 1 1) st ∧
      exec (.resetbit b i) st = exec (.insert b i 1 0) st ∧
      ∃ set clr : Byte, exec (.setbit b i) st = .next (answered set st) ∧
        exec (.resetbit b i) st = .next (answered clr st) ∧
        exec (.insert set i 1 0) st = .next (answered clr st) ∧
        exec (.insert clr i 1 1) st = .next (answered set st)) ∧
    (8 ≤ i.toNat →
      exec (.getbit b i) st = .next (failed .indexOutOfRange b st) ∧
      exec (.setbit b i) st = .next (failed .indexOutOfRange b st) ∧
      exec (.resetbit b i) st = .next (failed .indexOutOfRange b st) ∧
      exec (.extract b i 1) st = .next (failed .startBitInvalid b st) ∧
      ∀ v : Byte, exec (.insert b i 1 v) st = .next (failed .startBitInvalid b st))

/-- R109: without the optional group its opcodes are reserved, and along every run the IndexOutOfRange flag stays 0 from reset
on. -/
def Obligations.NoIndexErrorWithoutSingleBitGroup : Prop :=
  (∀ w : CmdWord, 0x10 ≤ (opField w).toNat → (opField w).toNat ≤ 0x1B →
    decodeWith false w = .reserved (opField w)) ∧
  (∀ (n : Nat) (s t : State), s.params.singleBitOps = false → runSteps n s = .next t →
    hasFlag s.params.flagBit .indexOutOfRange s.err = false → hasFlag s.params.flagBit .indexOutOfRange t.err = false) ∧
  (∀ fb : Config.FlagBit, hasFlag fb .indexOutOfRange State.reset.err = false)

/-! ## Responses and time -/

/-- R166: a command accepted while nothing is in flight is answered after LATENCY cycles: its result, the one `exec` gives it, is
offered on `rsp_data` in the cycle of its acceptance where LATENCY is 0, and, while the outside does nothing more, in the k-th
cycle after it where LATENCY is at most k. That an offered response stays on offer until it is taken is log 11, and that the
empty block accepts the command is log 8. -/
def Obligations.ResponseOfferedAfterLatency : Prop :=
  ∀ (s : State) (i : PortIn) (c : Instr) (k : Nat),
    s.inFlight = [] → s.inputs = i :: List.replicate k PortIn.idle → i.rst = false → i.cmdValid = true →
    i.rspReady = false → decodeWith s.params.singleBitOps i.cmd = .instr c →
    ∃ u r, exec c { s with inputs := s.inputs.tail } = .next u ∧ u.inFlight = [{ result := r, age := 0 }] ∧
      (outputs i s).rspValid = decide (s.params.latency = 0) ∧
      (s.params.latency = 0 → (outputs i s).rspData = r) ∧
      ∃ t, runSteps (k + 1) s = .next t ∧ t.inFlight = [{ result := r, age := k + 1 }] ∧
        (outputs PortIn.idle t).rspValid = decide (s.params.latency ≤ k + 1) ∧
        (s.params.latency ≤ k + 1 → (outputs PortIn.idle t).rspData = r)

/-- R167: without reset, `cmd_ready` is 1 exactly while the block holds fewer responses than it can (that it is 1 at every such
time is log 8); while it holds as many as it can, an offered command is not accepted and leaves no trace, and no response is
lost. -/
def Obligations.FullBlockAcceptsNothing : Prop :=
  (∀ (s : State) (i : PortIn), i.rst = false →
    (outputs i s).cmdReady = decide (s.inFlight.length < s.params.depth)) ∧
  (∀ (s : State) (i : PortIn) (rest : List PortIn),
    s.inputs = i :: rest → i.rst = false → s.inFlight.length = s.params.depth →
    (outputs i s).cmdReady = false ∧ accepts i s = false ∧
    ∃ t, step s = .next t ∧ t.err = s.err ∧ responses t = responses s)

/-- R32, R48, R166, R167: for every LATENCY and every depth, along every run without a reset, the responses are those of the
accepted commands carried out one at a time in acceptance order, one each, in order, none lost, and ERR is what they leave. -/
def Obligations.ResponsesInAcceptanceOrder : Prop :=
  ∀ (n : Nat) (s t : State), runSteps n s = .next t → noReset n s →
    ∃ rs, responses t = responses s ++ rs ∧ Serves s.params s.err (acceptedRun n s) rs t.err

/-! ## The invariant -/

/-- R6, R27, R166, R167: every step keeps the invariant of the block and the parameters of the instance. That the depth bounds
the commands in flight is log 8. -/
def Obligations.EdgeKeepsInvariant : Prop :=
  ∀ s t : State, Inv s → step s = .next t → Inv t ∧ t.params = s.params

/-- R27, R30, R162: the state after reset meets the invariant, under every value of the parameters. -/
def Obligations.ResetMeetsInvariant : Prop :=
  ∀ p : Config.Params, Inv { State.reset with params := p }
end

