-- ==== Sys2Proof/Laws/Decode.lean ====
section
/-! SUPPORT. The fields of a command word, and the rows of the opcode map. -/

namespace Sys2Proof

/-- The bits of a command word, field by field. -/
theorem cmdWord_getLsbD (op v l s b : Byte) (j : Nat) :
    (cmdWord op v l s b).getLsbD j =
      if j < 8 then b.getLsbD j else if j < 16 then s.getLsbD (j - 8) else if j < 24 then l.getLsbD (j - 16)
      else if j < 32 then v.getLsbD (j - 24) else op.getLsbD (j - 32) := by
  have append : (op ++ v ++ l ++ s ++ b).getLsbD j =
      if j < 8 then b.getLsbD j else if j < 16 then s.getLsbD (j - 8) else if j < 24 then l.getLsbD (j - 16)
      else if j < 32 then v.getLsbD (j - 24) else op.getLsbD (j - 32) := by
    simp only [BitVec.getLsbD_append]
    simp only [Nat.sub_sub, Nat.reduceAdd]
    split_ifs <;> first | rfl | omega
  exact append

@[simp] theorem opField_cmdWord (op v l s b : Byte) : opField (cmdWord op v l s b) = op := by
  refine BitVec.eq_of_getLsbD_eq fun j hj => ?_
  rw [opField, BitVec.getLsbD_extractLsb', cmdWord_getLsbD]
  simp only [hj, decide_true, Bool.true_and]
  split_ifs <;> first | omega | (congr 1; omega)

@[simp] theorem vField_cmdWord (op v l s b : Byte) : vField (cmdWord op v l s b) = v := by
  refine BitVec.eq_of_getLsbD_eq fun j hj => ?_
  rw [vField, BitVec.getLsbD_extractLsb', cmdWord_getLsbD]
  simp only [hj, decide_true, Bool.true_and]
  split_ifs <;> first | omega | (congr 1; omega)

@[simp] theorem lField_cmdWord (op v l s b : Byte) : lField (cmdWord op v l s b) = l := by
  refine BitVec.eq_of_getLsbD_eq fun j hj => ?_
  rw [lField, BitVec.getLsbD_extractLsb', cmdWord_getLsbD]
  simp only [hj, decide_true, Bool.true_and]
  split_ifs <;> first | omega | (congr 1; omega)

@[simp] theorem sField_cmdWord (op v l s b : Byte) : sField (cmdWord op v l s b) = s := by
  refine BitVec.eq_of_getLsbD_eq fun j hj => ?_
  rw [sField, BitVec.getLsbD_extractLsb', cmdWord_getLsbD]
  simp only [hj, decide_true, Bool.true_and]
  split_ifs <;> first | omega | (congr 1; omega)

@[simp] theorem bField_cmdWord (op v l s b : Byte) : bField (cmdWord op v l s b) = b := by
  refine BitVec.eq_of_getLsbD_eq fun j hj => ?_
  rw [bField, BitVec.getLsbD_extractLsb', cmdWord_getLsbD]
  simp only [hj, decide_true, Bool.true_and]
  split_ifs <;> first | omega | (congr 1; omega)

/-- No two rows of the opcode map have one opcode (R57). -/
theorem opcodeRows_distinct : opcodeRows.Pairwise (fun r q => r.1 ≠ q.1) := by decide

/-- R57: the row an opcode has, as the table lists it. -/
theorem rowOf_eq_some (op : Byte) (m : Mnemonic) : rowOf op = some m ↔ (op, m) ∈ opcodeRows := by
  revert op; cases m <;> decide

/-- R59: the opcodes with no row. -/
theorem rowOf_eq_none (op : Byte) :
    rowOf op = none ↔ (0x04 ≤ op.toNat ∧ op.toNat ≤ 0x0F) ∨ 0x1C ≤ op.toNat := by
  revert op; decide

/-- R60: what the decoder makes of a word whose opcode has a row. -/
theorem decodeWith_of_row {w : CmdWord} {m : Mnemonic} (sb : Bool) (h : rowOf (opField w) = some m) :
    decodeWith sb w =
      if (m.build (vField w) (lField w) (sField w) (bField w)).wellFormedWith sb then
        .instr (m.build (vField w) (lField w) (sField w) (bField w))
      else .reserved (opField w) := by
  rw [decodeWith, h]

/-- R59: what the decoder makes of a word whose opcode has none. -/
theorem decodeWith_of_no_row {w : CmdWord} (sb : Bool) (h : rowOf (opField w) = none) :
    decodeWith sb w = .reserved (opField w) := by
  rw [decodeWith, h]

end Sys2Proof
end

