-- ==== Sys2Proof/Laws/Flags.lean ====
section
/-! SUPPORT. The flags of ERR, bit by bit, for every FLAG_BIT. -/

namespace Sys2Proof.Machine

/-- One bit of a byte. -/
theorem getLsbD_oneBit (n : Fin 8) (j : Nat) : ((1 : Byte) <<< n.val).getLsbD j = decide (j = n.val) := by
  have small : ∀ n j : Fin 8, ((1 : Byte) <<< n.val).getLsbD j.val = decide (j.val = n.val) := by decide
  by_cases h : j < 8
  · exact small n ⟨j, h⟩
  · have hn := n.isLt
    rw [BitVec.getLsbD_of_ge _ _ (by omega), eq_comm, decide_eq_false_iff_not]
    omega

/-- R26: distinct kinds have distinct bits, from the assignment's own check. -/
theorem bit_injective (fb : Config.FlagBit) : Function.Injective fb.bit := by
  have h := fb.distinct
  simp only [List.nodup_cons, List.mem_cons, not_or, List.not_mem_nil, not_false_eq_true, List.nodup_nil, and_true] at h
  intro j k hjk
  cases j <;> cases k <;> simp only [Config.FlagBit.bit] at hjk <;> first | rfl | (exfalso; simp_all)

theorem flagMask_eq (fb : Config.FlagBit) (k : ErrorKind) : flagMask fb k = (1 : Byte) <<< (fb.bit k).val := rfl

theorem setFlag_eq (fb : Config.FlagBit) (k : ErrorKind) (err : Byte) :
    setFlag fb k err = err ||| ((1 : Byte) <<< (fb.bit k).val) := rfl

theorem setFlag_getLsbD (fb : Config.FlagBit) (k : ErrorKind) (err : Byte) (j : Nat) :
    (setFlag fb k err).getLsbD j = (err.getLsbD j || decide (j = (fb.bit k).val)) := by
  rw [setFlag_eq, BitVec.getLsbD_or, getLsbD_oneBit]

theorem mem_allKinds (k : ErrorKind) : k ∈ allKinds := by cases k <;> decide

/-- A bit of `encode(S)` is set exactly by a kind of `S` whose flag it is. -/
theorem encodeKinds_getLsbD (fb : Config.FlagBit) (S : ErrorKind → Bool) (j : Nat) :
    (encodeKinds fb S).getLsbD j = allKinds.any (fun k => S k && decide (j = (fb.bit k).val)) := by
  have step : ∀ (b : Bool) (acc m : Byte), (if b then acc ||| m else acc).getLsbD j = (acc.getLsbD j || (b && m.getLsbD j)) := by
    intro b acc m; cases b <;> simp
  simp only [encodeKinds, allKinds, List.foldl, List.any, step, flagMask, getLsbD_oneBit]
  simp [Bool.or_assoc]

/-- R27: no flag is a reserved bit. -/
theorem flagMask_and_reservedBits (fb : Config.FlagBit) (k : ErrorKind) : flagMask fb k &&& reservedBits fb = 0 := by
  refine BitVec.eq_of_getLsbD_eq fun j hj => ?_
  rw [BitVec.getLsbD_and, flagMask_eq, getLsbD_oneBit, reservedBits, BitVec.getLsbD_not, encodeKinds_getLsbD]
  by_cases h : j = (fb.bit k).val
  · have named : (allKinds.any fun k => true && decide (j = (fb.bit k).val)) = true :=
      List.any_eq_true.2 ⟨k, mem_allKinds k, by simp [h]⟩
    rw [named]; simp
  · simp [h]

/-- R27: accumulating a kind leaves the reserved bits as they were. -/
theorem setFlag_and_reservedBits (fb : Config.FlagBit) (k : ErrorKind) (err : Byte) :
    setFlag fb k err &&& reservedBits fb = err &&& reservedBits fb := by
  refine BitVec.eq_of_getLsbD_eq fun j hj => ?_
  have h : ((flagMask fb k).getLsbD j && (reservedBits fb).getLsbD j) = false := by
    rw [← BitVec.getLsbD_and, flagMask_and_reservedBits]; exact BitVec.getLsbD_zero
  rw [BitVec.getLsbD_and, BitVec.getLsbD_and, setFlag, BitVec.getLsbD_or, Bool.and_or_distrib_right, h, Bool.or_false]

end Sys2Proof.Machine
end

