-- ==== Sys2Proof/Laws/Operands.lean ====
section
/-! SUPPORT. The checks as conditions on the operands, and the masks and results bit by bit. -/

namespace Sys2Proof.Machine

theorem checkField_eq_none (s l : Byte) :
    checkField s l = none ↔ s.toNat < 8 ∧ 1 ≤ l.toNat ∧ l.toNat ≤ 8 ∧ s.toNat + l.toNat ≤ 8 := by
  unfold checkField; split_ifs <;> simp <;> omega

theorem checkInsert_eq_none (s l v : Byte) :
    checkInsert s l v = none ↔
      (s.toNat < 8 ∧ 1 ≤ l.toNat ∧ l.toNat ≤ 8 ∧ s.toNat + l.toNat ≤ 8) ∧ v.toNat ≤ 2 ^ l.toNat - 1 := by
  rw [← checkField_eq_none]
  unfold checkInsert checkValue
  cases checkField s l <;> simp

theorem checkIndex_eq_none (i : Byte) : checkIndex i = none ↔ i.toNat ≤ 7 := by
  unfold checkIndex; split_ifs <;> simp <;> omega

/-- A field check raises one of the three field kinds, in the order of R90. -/
theorem checkField_eq_some (s l : Byte) (k : ErrorKind) :
    checkField s l = some k ↔
      (k = .startBitInvalid ∧ 8 ≤ s.toNat) ∨
      (k = .lengthInvalid ∧ s.toNat < 8 ∧ (l.toNat = 0 ∨ 8 < l.toNat)) ∨
      (k = .totalLengthExceeded ∧ s.toNat < 8 ∧ 1 ≤ l.toNat ∧ l.toNat ≤ 8 ∧ 8 < s.toNat + l.toNat) := by
  unfold checkField
  cases k <;> split_ifs <;> simp <;> omega

theorem testBit_255 (j : Nat) : Nat.testBit 255 j = decide (j < 8) :=
  Nat.testBit_two_pow_sub_one 8 j

theorem compl8_testBit (a j : Nat) : (compl8 a).testBit j = (decide (j < 8) && !a.testBit j) := by
  have h : a % 256 = a % 2 ^ 8 := rfl
  rw [compl8, h, Nat.testBit_xor, testBit_255, Nat.testBit_mod_two_pow]
  cases decide (j < 8) <;> simp

theorem lowMask_testBit (l j : Nat) (hl : l ≤ 8) : (lowMask l).testBit j = decide (j < l) := by
  rw [lowMask, Nat.testBit_shiftRight, testBit_255]
  exact decide_eq_decide.mpr (by omega)

theorem fieldMask_testBit (s l j : Nat) : (fieldMask s l).testBit j = (decide (s ≤ j) && decide (j < s + l)) := by
  rw [fieldMask, Nat.testBit_shiftLeft, Nat.one_shiftLeft, Nat.testBit_two_pow_sub_one]
  by_cases h : s ≤ j
  · simp only [h, decide_true, Bool.true_and]; exact decide_eq_decide.mpr (by omega)
  · simp [h]

theorem extractValue_testBit (b s l j : Nat) (hl : l ≤ 8) :
    (extractValue b s l).testBit j = (decide (j < l) && b.testBit (s + j)) := by
  rw [extractValue, Nat.testBit_and, Nat.testBit_shiftRight, lowMask_testBit _ _ hl, Bool.and_comm]

/-- The bits of a value that fits its field. -/
theorem testBit_of_le (v l j : Nat) (hv : v ≤ 2 ^ l - 1) (hj : l ≤ j) : v.testBit j = false := by
  have h1 : 0 < 2 ^ l := Nat.two_pow_pos l
  have h2 : 2 ^ l ≤ 2 ^ j := Nat.pow_le_pow_right (by omega) hj
  exact Nat.testBit_lt_two_pow (by omega)

theorem insertValue_testBit (b s l v j : Nat) (hb : b < 256) (hv : v ≤ 2 ^ l - 1) :
    (insertValue b s l v).testBit j = if s ≤ j ∧ j < s + l then v.testBit (j - s) else b.testBit j := by
  have hb8 : 8 ≤ j → b.testBit j = false := fun h =>
    testBit_of_le b 8 j (by omega) h
  rw [insertValue, Nat.testBit_or, Nat.testBit_and, compl8_testBit, fieldMask_testBit, Nat.testBit_shiftLeft]
  by_cases h1 : s ≤ j
  · by_cases h2 : j < s + l
    · simp [h1, h2]
    · have : v.testBit (j - s) = false := testBit_of_le v l _ hv (by omega)
      by_cases h3 : j < 8
      · simp [h1, h2, h3, this]
      · simp [h1, h2, h3, this, hb8 (by omega)]
  · by_cases h3 : j < 8
    · simp [h1, h3]
    · simp [h1, h3, hb8 (by omega)]

theorem getBitValue_eq (b i : Nat) : getBitValue b i = (b.testBit i).toNat := by
  rw [getBitValue, Nat.and_one_is_mod, Nat.testBit_eq_decide_div_mod_eq, Nat.shiftRight_eq_div_pow]
  rcases Nat.mod_two_eq_zero_or_one (b / 2 ^ i) with h | h <;> simp [h]

theorem setBitValue_testBit (b i j : Nat) : (setBitValue b i).testBit j = (decide (j = i) || b.testBit j) := by
  rw [setBitValue, Nat.testBit_or, Nat.one_shiftLeft, Nat.testBit_two_pow, Bool.or_comm]
  simp only [eq_comm]

theorem resetBitValue_testBit (b i j : Nat) (hb : b < 256) :
    (resetBitValue b i).testBit j = (!decide (j = i) && b.testBit j) := by
  have hb8 : 8 ≤ j → b.testBit j = false := fun h => testBit_of_le b 8 j (by omega) h
  rw [resetBitValue, Nat.testBit_and, compl8_testBit, Nat.one_shiftLeft, Nat.testBit_two_pow]
  by_cases h3 : j < 8
  · simp only [h3, decide_true, Bool.true_and, Bool.and_comm, eq_comm]
  · simp [h3, hb8 (by omega)]

theorem flipBitValue_testBit (b i j : Nat) : (flipBitValue b i).testBit j = (decide (j = i) ^^ b.testBit j) := by
  rw [flipBitValue, Nat.testBit_xor, Nat.one_shiftLeft, Nat.testBit_two_pow, Bool.xor_comm]
  simp only [eq_comm]

/-- A value all of whose bits lie below bit 8 is a byte. -/
theorem lt_256_of_testBit (n : Nat) (h : ∀ j, 8 ≤ j → n.testBit j = false) : n < 256 :=
  Nat.lt_pow_two_of_testBit (n := 8) n (fun j hj => h j hj)

theorem resultByte_toNat (n : Nat) (h : n < 256) : (resultByte n).toNat = n := by
  rw [resultByte, BitVec.toNat_ofNat, Nat.mod_eq_of_lt h]

/-- R10: the bits of a result are those of the value, which has none above bit 7. -/
theorem resultByte_getLsbD (n j : Nat) (h : n < 256) : (resultByte n).getLsbD j = n.testBit j := by
  rw [← BitVec.testBit_toNat, resultByte_toNat n h]

end Sys2Proof.Machine
end

