-- ==== Sys2Proof/Laws/State.lean ====
section
/-! SUPPORT. What each operation on the state makes of each field, one lemma per field. -/

namespace Sys2Proof.Machine

@[simp] theorem respond_params (r : Byte) (s : State) : (respond r s).params = s.params := rfl
@[simp] theorem respond_err (r : Byte) (s : State) : (respond r s).err = s.err := rfl
@[simp] theorem respond_inFlight (r : Byte) (s : State) : (respond r s).inFlight = s.inFlight ++ [{ result := r, age := 0 }] := rfl
@[simp] theorem respond_inputs (r : Byte) (s : State) : (respond r s).inputs = s.inputs := rfl
@[simp] theorem respond_delivered (r : Byte) (s : State) : (respond r s).delivered = s.delivered := rfl
@[simp] theorem respond_draws (r : Byte) (s : State) : (respond r s).draws = s.draws := rfl

@[simp] theorem accumulate_params (k : ErrorKind) (s : State) : (accumulate k s).params = s.params := rfl
@[simp] theorem accumulate_err (k : ErrorKind) (s : State) : (accumulate k s).err = setFlag s.params.flagBit k s.err := rfl
@[simp] theorem accumulate_inFlight (k : ErrorKind) (s : State) : (accumulate k s).inFlight = s.inFlight := rfl
@[simp] theorem accumulate_inputs (k : ErrorKind) (s : State) : (accumulate k s).inputs = s.inputs := rfl
@[simp] theorem accumulate_delivered (k : ErrorKind) (s : State) : (accumulate k s).delivered = s.delivered := rfl
@[simp] theorem accumulate_draws (k : ErrorKind) (s : State) : (accumulate k s).draws = s.draws := rfl

@[simp] theorem failPath_params (k : ErrorKind) (b : Byte) (s : State) : (failPath k b s).params = s.params := rfl
@[simp] theorem failPath_err (k : ErrorKind) (b : Byte) (s : State) : (failPath k b s).err = setFlag s.params.flagBit k s.err := rfl
@[simp] theorem failPath_inFlight (k : ErrorKind) (b : Byte) (s : State) : (failPath k b s).inFlight = s.inFlight ++ [{ result := b, age := 0 }] := rfl
@[simp] theorem failPath_inputs (k : ErrorKind) (b : Byte) (s : State) : (failPath k b s).inputs = s.inputs := rfl
@[simp] theorem failPath_delivered (k : ErrorKind) (b : Byte) (s : State) : (failPath k b s).delivered = s.delivered := rfl
@[simp] theorem failPath_draws (k : ErrorKind) (b : Byte) (s : State) : (failPath k b s).draws = s.draws := rfl

@[simp] theorem clearErr_params (s : State) : (clearErr s).params = s.params := rfl
@[simp] theorem clearErr_err (s : State) : (clearErr s).err = 0 := rfl
@[simp] theorem clearErr_inFlight (s : State) : (clearErr s).inFlight = s.inFlight := rfl
@[simp] theorem clearErr_inputs (s : State) : (clearErr s).inputs = s.inputs := rfl
@[simp] theorem clearErr_delivered (s : State) : (clearErr s).delivered = s.delivered := rfl
@[simp] theorem clearErr_draws (s : State) : (clearErr s).draws = s.draws := rfl

@[simp] theorem respondUnspec_params (s : State) : (respondUnspec s).params = s.params := rfl
@[simp] theorem respondUnspec_err (s : State) : (respondUnspec s).err = s.err := rfl
@[simp] theorem respondUnspec_inFlight (s : State) : (respondUnspec s).inFlight = s.inFlight ++ [{ result := Config.unspecResult s.draws, age := 0 }] := rfl
@[simp] theorem respondUnspec_inputs (s : State) : (respondUnspec s).inputs = s.inputs := rfl
@[simp] theorem respondUnspec_delivered (s : State) : (respondUnspec s).delivered = s.delivered := rfl
@[simp] theorem respondUnspec_draws (s : State) : (respondUnspec s).draws = s.draws + 1 := rfl

@[simp] theorem resetEdge_params (s : State) : (resetEdge s).params = s.params := rfl
@[simp] theorem resetEdge_err (s : State) : (resetEdge s).err = 0 := rfl
@[simp] theorem resetEdge_inFlight (s : State) : (resetEdge s).inFlight = [] := rfl
@[simp] theorem resetEdge_inputs (s : State) : (resetEdge s).inputs = s.inputs := rfl
@[simp] theorem resetEdge_delivered (s : State) : (resetEdge s).delivered = s.delivered := rfl
@[simp] theorem resetEdge_draws (s : State) : (resetEdge s).draws = s.draws := rfl

@[simp] theorem tick_params (s : State) : (tick s).params = s.params := rfl
@[simp] theorem tick_err (s : State) : (tick s).err = s.err := rfl
@[simp] theorem tick_inFlight (s : State) : (tick s).inFlight = s.inFlight.map (fun f => { f with age := f.age + 1 }) := rfl
@[simp] theorem tick_inputs (s : State) : (tick s).inputs = s.inputs := rfl
@[simp] theorem tick_delivered (s : State) : (tick s).delivered = s.delivered := rfl
@[simp] theorem tick_draws (s : State) : (tick s).draws = s.draws + 1 := rfl

@[simp] theorem answered_params (r : Byte) (s : State) : (answered r s).params = s.params := rfl
@[simp] theorem answered_err (r : Byte) (s : State) : (answered r s).err = s.err := rfl
@[simp] theorem answered_inFlight (r : Byte) (s : State) : (answered r s).inFlight = s.inFlight ++ [{ result := r, age := 0 }] := rfl
@[simp] theorem answered_inputs (r : Byte) (s : State) : (answered r s).inputs = s.inputs := rfl
@[simp] theorem answered_delivered (r : Byte) (s : State) : (answered r s).delivered = s.delivered := rfl
@[simp] theorem answered_draws (r : Byte) (s : State) : (answered r s).draws = s.draws := rfl

@[simp] theorem failed_params (k : ErrorKind) (b : Byte) (s : State) : (failed k b s).params = s.params := rfl
@[simp] theorem failed_err (k : ErrorKind) (b : Byte) (s : State) : (failed k b s).err = s.err ||| ((1 : Byte) <<< (s.params.flagBit.bit k).val) := rfl
@[simp] theorem failed_inFlight (k : ErrorKind) (b : Byte) (s : State) : (failed k b s).inFlight = s.inFlight ++ [{ result := b, age := 0 }] := rfl
@[simp] theorem failed_inputs (k : ErrorKind) (b : Byte) (s : State) : (failed k b s).inputs = s.inputs := rfl
@[simp] theorem failed_delivered (k : ErrorKind) (b : Byte) (s : State) : (failed k b s).delivered = s.delivered := rfl
@[simp] theorem failed_draws (k : ErrorKind) (b : Byte) (s : State) : (failed k b s).draws = s.draws := rfl

/-- Taking a response, or not, touches only the commands in flight and what the outside has taken. -/
theorem takeResponse_eq (i : PortIn) (s : State) :
    takeResponse i s =
      { s with inFlight := (takeResponse i s).inFlight, delivered := (takeResponse i s).delivered } := by
  unfold takeResponse; split <;> rfl

@[simp] theorem takeResponse_params (i : PortIn) (s : State) : (takeResponse i s).params = s.params := by
  rw [takeResponse_eq]
@[simp] theorem takeResponse_err (i : PortIn) (s : State) : (takeResponse i s).err = s.err := by
  rw [takeResponse_eq]
@[simp] theorem takeResponse_inputs (i : PortIn) (s : State) :
    (takeResponse i s).inputs = s.inputs := by
  rw [takeResponse_eq]
@[simp] theorem takeResponse_draws (i : PortIn) (s : State) : (takeResponse i s).draws = s.draws := by
  rw [takeResponse_eq]
@[simp] theorem finishEdge_params (i : PortIn) (s : State) : (finishEdge i s).params = s.params := by
  simp [finishEdge]
@[simp] theorem finishEdge_err (i : PortIn) (s : State) : (finishEdge i s).err = s.err := by
  simp [finishEdge]
@[simp] theorem finishEdge_inputs (i : PortIn) (s : State) : (finishEdge i s).inputs = s.inputs := by
  simp [finishEdge]
@[simp] theorem finishEdge_draws (i : PortIn) (s : State) :
    (finishEdge i s).draws = s.draws + 1 := by
  simp [finishEdge]

end Sys2Proof.Machine
end

