-- ==== Sys2Proof/Laws/Ops.lean ====
section
/-! SUPPORT. What the shared operations can do, each said once. -/

namespace Sys2Proof.Machine

theorem respond_eq_answered (r : Byte) (s : State) : respond r s = answered r s := rfl

/-- R94: the failure path as the statements write it. -/
theorem failPath_eq_failed (k : ErrorKind) (b : Byte) (s : State) : failPath k b s = failed k b s := rfl

/-- R94, R95: a validated command answers its result where no check fails. -/
theorem validated_of_none {check : Option ErrorKind} (h : check = none) (b r : Byte) (s : State) :
    validated check b r s = answered r s := by
  rw [h]; rfl

/-- R94: a validated command takes the failure path where a check fails. -/
theorem validated_of_some {check : Option ErrorKind} {k : ErrorKind} (h : check = some k) (b r : Byte) (s : State) :
    validated check b r s = failed k b s := by
  rw [h]; rfl

/-- R82: what CLEAR does, with the free value it draws. -/
theorem respondUnspec_clearErr (s : State) :
    respondUnspec (clearErr s) =
      { s with
        err := 0, inFlight := s.inFlight ++ [{ result := Config.unspecResult s.draws, age := 0 }]
        draws := s.draws + 1 } := rfl

/-- R28: CLEAR leaves 0. -/
theorem errAfter_clear (fb : Config.FlagBit) (err : Byte) : errAfter fb .clear err = 0 := rfl

/-- R28: a command that raises a kind leaves its flag set. -/
theorem errAfter_of_some {c : Instr} {k : ErrorKind} (h : raises c = some k) (fb : Config.FlagBit) (err : Byte) :
    errAfter fb c err = setFlag fb k err := by
  have hc : c ≠ .clear := by rintro rfl; cases h
  rw [errAfter, if_neg hc, h]; rfl

/-- R28: a command that raises none and is not CLEAR leaves ERR. -/
theorem errAfter_of_none {c : Instr} (hc : c ≠ .clear) (h : raises c = none) (fb : Config.FlagBit) (err : Byte) :
    errAfter fb c err = err := by
  rw [errAfter, if_neg hc, h]

end Sys2Proof.Machine
end

