-- ==== Sys2Proof/Laws/PerInstr.lean ====
section
/-! SUPPORT. Families of statements about every command as syntax, one lemma per command. -/

namespace Sys2Proof.Laws.EncodedOpcode

/-- R57: the encoding's opcode has a row, and that row rebuilds the command from the encoding's own fields. -/
def Statement (i : Instr) : Prop :=
  ∃ m, rowOf (opField (encode i)) = some m ∧
    m.build (vField (encode i)) (lField (encode i)) (sField (encode i)) (bField (encode i)) = i

theorem inspect : Statement .inspect := ⟨.inspect, by decide, rfl⟩
theorem clear : Statement .clear := ⟨.clear, by decide, rfl⟩
theorem extract (b s l : Byte) : Statement (.extract b s l) :=
  ⟨.extract, by simp only [encode, opField_cmdWord]; decide, by simp [Mnemonic.build, encode]⟩
theorem insert (b s l v : Byte) : Statement (.insert b s l v) :=
  ⟨.insert, by simp only [encode, opField_cmdWord]; decide, by simp [Mnemonic.build, encode]⟩
theorem getbit (b i : Byte) : Statement (.getbit b i) :=
  ⟨.getbit, by simp only [encode, opField_cmdWord]; decide, by simp [Mnemonic.build, encode]⟩
theorem setbit (b i : Byte) : Statement (.setbit b i) :=
  ⟨.setbit, by simp only [encode, opField_cmdWord]; decide, by simp [Mnemonic.build, encode]⟩
theorem resetbit (b i : Byte) : Statement (.resetbit b i) :=
  ⟨.resetbit, by simp only [encode, opField_cmdWord]; decide, by simp [Mnemonic.build, encode]⟩
theorem flipbit (b i : Byte) : Statement (.flipbit b i) :=
  ⟨.flipbit, by simp only [encode, opField_cmdWord]; decide, by simp [Mnemonic.build, encode]⟩
theorem getlsb (b : Byte) : Statement (.getlsb b) :=
  ⟨.getlsb, by simp only [encode, opField_cmdWord]; decide, by simp [Mnemonic.build, encode]⟩
theorem getmsb (b : Byte) : Statement (.getmsb b) :=
  ⟨.getmsb, by simp only [encode, opField_cmdWord]; decide, by simp [Mnemonic.build, encode]⟩
theorem setlsb (b : Byte) : Statement (.setlsb b) :=
  ⟨.setlsb, by simp only [encode, opField_cmdWord]; decide, by simp [Mnemonic.build, encode]⟩
theorem setmsb (b : Byte) : Statement (.setmsb b) :=
  ⟨.setmsb, by simp only [encode, opField_cmdWord]; decide, by simp [Mnemonic.build, encode]⟩
theorem resetlsb (b : Byte) : Statement (.resetlsb b) :=
  ⟨.resetlsb, by simp only [encode, opField_cmdWord]; decide, by simp [Mnemonic.build, encode]⟩
theorem resetmsb (b : Byte) : Statement (.resetmsb b) :=
  ⟨.resetmsb, by simp only [encode, opField_cmdWord]; decide, by simp [Mnemonic.build, encode]⟩
theorem fliplsb (b : Byte) : Statement (.fliplsb b) :=
  ⟨.fliplsb, by simp only [encode, opField_cmdWord]; decide, by simp [Mnemonic.build, encode]⟩
theorem flipmsb (b : Byte) : Statement (.flipmsb b) :=
  ⟨.flipmsb, by simp only [encode, opField_cmdWord]; decide, by simp [Mnemonic.build, encode]⟩

end Sys2Proof.Laws.EncodedOpcode
end

