-- ==== Sys2Proof/Laws/Port.lean ====
section
/-! SUPPORT. What one edge of the clock can do, said once. -/

namespace Sys2Proof.Machine

/-- An edge that ends in a next state is a reset edge, or accepts no command, or accepts one and runs it. -/
theorem step_next_cases {s t : State} (h : step s = .next t) :
    ((nextInput s).rst = true ∧ t = tick (resetEdge { s with inputs := s.inputs.tail })) ∨
    ((nextInput s).rst = false ∧ accepts (nextInput s) s = false ∧
      t = finishEdge (nextInput s) { s with inputs := s.inputs.tail }) ∨
    (∃ c u, (nextInput s).rst = false ∧ accepts (nextInput s) s = true ∧
      decodeWith s.params.singleBitOps (nextInput s).cmd = .instr c ∧ exec c { s with inputs := s.inputs.tail } = .next u ∧
      t = finishEdge (nextInput s) u) := by
  unfold step nextEdge edge at h
  cases hr : (nextInput s).rst with
  | true => simp only [hr, if_true] at h; cases h; exact .inl ⟨rfl, rfl⟩
  | false =>
    have same : accepts (nextInput s) { s with inputs := s.inputs.tail } = accepts (nextInput s) s := rfl
    simp only [hr, Bool.false_eq_true, if_false, acceptCommand, same] at h
    cases ha : accepts (nextInput s) s with
    | false => simp only [ha, Bool.false_eq_true, if_false] at h; cases h; exact .inr (.inl ⟨rfl, rfl, rfl⟩)
    | true =>
      simp only [ha, if_true, issue] at h
      cases hd : decodeWith s.params.singleBitOps (nextInput s).cmd with
      | reserved op => simp only [hd] at h; cases h
      | instr c =>
        simp only [hd] at h
        cases he : exec c { s with inputs := s.inputs.tail } with
        | next u => simp only [he] at h; cases h; exact .inr (.inr ⟨c, u, rfl, rfl, rfl, he, rfl⟩)
        | fault r => simp only [he] at h; cases h
        | refused r => simp only [he] at h; cases h

/-- The command of an edge that accepts one. -/
theorem acceptedCommand_eq_some {s : State} {c : Instr} :
    acceptedCommand s = some c ↔
      accepts (nextInput s) s = true ∧ decodeWith s.params.singleBitOps (nextInput s).cmd = .instr c := by
  unfold acceptedCommand
  cases accepts (nextInput s) s with
  | false => simp
  | true =>
    cases decodeWith s.params.singleBitOps (nextInput s).cmd with
    | instr d => simp
    | reserved op => simp

theorem acceptedCommand_eq_none_of_not_accepts {s : State} (h : accepts (nextInput s) s = false) :
    acceptedCommand s = none := by
  simp [acceptedCommand, h]

theorem accepts_false_of_rst {i : PortIn} (s : State) (h : i.rst = true) : accepts i s = false := by
  simp [accepts, cmdReady, h]

/-- Taking a response moves it from the commands in flight to the responses taken: none is lost and the order stays. -/
theorem responses_takeResponse (i : PortIn) (s : State) :
    responses (takeResponse i s) = responses s := by
  unfold takeResponse
  split
  · unfold offered
    cases hf : s.inFlight with
    | nil => simp [responses, hf]
    | cons f fs => by_cases hl : s.params.latency ≤ f.age <;> simp [hl, responses, hf]
  · rfl

theorem responses_tick (s : State) : responses (tick s) = responses s := by
  simp [responses, Function.comp_def]

@[simp] theorem responses_finishEdge (i : PortIn) (s : State) :
    responses (finishEdge i s) = responses s := by
  rw [finishEdge, responses_tick, responses_takeResponse]

/-- A taken response leaves no more in flight than there was. -/
theorem takeResponse_sublist (i : PortIn) (s : State) :
    (takeResponse i s).inFlight.Sublist s.inFlight := by
  unfold takeResponse
  split
  · show (if (offered s).isSome then s.inFlight.tail else s.inFlight).Sublist s.inFlight
    split
    · exact List.tail_sublist _
    · exact List.Sublist.refl _
  · exact List.Sublist.refl _

@[simp] theorem makeRoom_params (s : State) : (makeRoom s).params = s.params := by
  unfold makeRoom; split <;> rfl

/-- The word a state has been given to fetch is offered at the coming edge and accepted there. -/
theorem offerWord_accepts (w : CmdWord) (s : State) :
    accepts (nextInput (offerWord w s)) (offerWord w s) = true ∧ (nextInput (offerWord w s)).cmd = w := by
  have room : (makeRoom s).inFlight.length < s.params.depth := by
    unfold makeRoom; split
    · assumption
    · simp [Config.Params.depth]
  exact ⟨by simpa [accepts, cmdReady, nextInput, offerWord] using room, rfl⟩

end Sys2Proof.Machine
end

