-- ==== Sys2Proof/Tests/Slice0.lean ====
section
/-! SUPPORT. Tests of the model on one step each, their expected values from 95_test_vectors.md or written out from the rules
cited, and a witness for the hypotheses of every statement. -/

namespace Sys2Proof.Tests

open Sys2Proof.Machine

/-- The block with ERR = `e` and nothing in flight. -/
def withErr (e : Byte) : State := { State.reset with err := e }

/-- What the last accepted command answers, and ERR after it. -/
def answer (o : Host.Outcome State Fault Refusal) : Option (Byte × Byte) :=
  match o with
  | .next t => t.inFlight.getLast?.map (fun f => (f.result, t.err))
  | .fault _ => none
  | .refused _ => none

/-! ### Well-formedness (R109) -/

theorem test_getbit_needs_the_group : (Instr.getbit 0x55 0).wellFormedWith false = false := by decide
theorem test_flipmsb_needs_the_group : (Instr.flipmsb 0x55).wellFormedWith false = false := by decide
theorem test_insert_always_exists : (Instr.insert 0x55 1 3 6).wellFormedWith false = true := by decide

/-! ### Decoding: words of 95_test_vectors.md and of the patterns of R55 and R57 -/

theorem test_decode_inspect : decode 0x00FFFFFFFF#40 = .instr .inspect := by decide
theorem test_decode_clear : decode 0x0100000000#40 = .instr .clear := by decide
theorem test_decode_extract : decode 0x02FF030155#40 = .instr (.extract 0x55 0x01 0x03) := by decide
theorem test_decode_insert : decode 0x031F050334#40 = .instr (.insert 0x34 0x03 0x05 0x1F) := by decide
theorem test_decode_getbit : decode 0x100000C801#40 = .instr (.getbit 0x01 0xC8) := by decide
theorem test_decode_setbit : decode 0x1100000155#40 = .instr (.setbit 0x55 0x01) := by decide
theorem test_decode_resetbit : decode 0x12000007FF#40 = .instr (.resetbit 0xFF 0x07) := by decide
theorem test_decode_flipbit : decode 0x1300000955#40 = .instr (.flipbit 0x55 0x09) := by decide
theorem test_decode_getlsb : decode 0x140000FF55#40 = .instr (.getlsb 0x55) := by decide
theorem test_decode_getmsb : decode 0x15000000AA#40 = .instr (.getmsb 0xAA) := by decide
theorem test_decode_setlsb : decode 0x16000000AA#40 = .instr (.setlsb 0xAA) := by decide
theorem test_decode_setmsb : decode 0x1700000055#40 = .instr (.setmsb 0x55) := by decide
theorem test_decode_resetlsb : decode 0x1800000055#40 = .instr (.resetlsb 0x55) := by decide
theorem test_decode_resetmsb : decode 0x19000000AA#40 = .instr (.resetmsb 0xAA) := by decide
theorem test_decode_fliplsb : decode 0x1A000000AA#40 = .instr (.fliplsb 0xAA) := by decide
theorem test_decode_flipmsb : decode 0x1B000000AA#40 = .instr (.flipmsb 0xAA) := by decide
theorem test_decode_reserved_04 : decode 0x0400000000#40 = .reserved 0x04 := by decide
theorem test_decode_reserved_1C : decode 0x1C00000055#40 = .reserved 0x1C := by decide
theorem test_decode_getbit_without_group : decodeWith false 0x1000000055#40 = .reserved 0x10 := by decide
theorem test_encode_insert : encode (.insert 0x55 1 3 6) = 0x0306030155#40 := by decide
theorem test_assemble_insert : assemble .insert [0x55, 1, 3, 6] = .ok 0x0306030155#40 := by rfl
theorem test_assemble_rejects_256 : assemble .getlsb [256] = .error .operandOutOfRange := by rfl
theorem test_bus_most_significant_first :
    busBytes (fun k => 4 - k) 0x0306030155#40 = [0x03, 0x06, 0x03, 0x01, 0x55] := by decide

/-! ### Results: vectors of 95_test_vectors.md, L2 and L3 -/

theorem test_inspect : answer (exec .inspect (withErr 0x1F)) = some (0x1F, 0x1F) := by decide
theorem test_clear : (answer (exec .clear (withErr 0x1F))).map (·.2) = some 0x00 := by decide
theorem test_extract : answer (exec (.extract 0xB6 3 3) (withErr 0)) = some (0x06, 0x00) := by decide
theorem test_extract_start_first : answer (exec (.extract 0x55 8 0) (withErr 0)) = some (0x55, 0x08) := by decide
theorem test_insert : answer (exec (.insert 0x34 3 5 31) (withErr 0)) = some (0xFC, 0x00) := by decide
theorem test_insert_value_last : answer (exec (.insert 0xAA 6 2 4) (withErr 0x1C)) = some (0xAA, 0x1E) := by decide
theorem test_getbit : answer (exec (.getbit 0xA5 7) (withErr 0)) = some (0x01, 0x00) := by decide
theorem test_getbit_out_of_range : answer (exec (.getbit 0x88 9) (withErr 0)) = some (0x88, 0x01) := by decide
theorem test_setbit : answer (exec (.setbit 0x55 1) (withErr 0)) = some (0x57, 0x00) := by decide
theorem test_resetbit : answer (exec (.resetbit 0xFF 7) (withErr 0)) = some (0x7F, 0x00) := by decide
theorem test_flipbit : answer (exec (.flipbit 0x55 7) (withErr 0)) = some (0xD5, 0x00) := by decide
theorem test_getlsb : answer (exec (.getlsb 0xAA) (withErr 0)) = some (0x00, 0x00) := by decide
theorem test_getmsb : answer (exec (.getmsb 0xAA) (withErr 0)) = some (0x01, 0x00) := by decide
theorem test_setlsb : answer (exec (.setlsb 0xAA) (withErr 0)) = some (0xAB, 0x00) := by decide
theorem test_setmsb : answer (exec (.setmsb 0x55) (withErr 0)) = some (0xD5, 0x00) := by decide
theorem test_resetlsb : answer (exec (.resetlsb 0x55) (withErr 0)) = some (0x54, 0x00) := by decide
theorem test_resetmsb : answer (exec (.resetmsb 0xAA) (withErr 0)) = some (0x2A, 0x00) := by decide
theorem test_fliplsb : answer (exec (.fliplsb 0xAA) (withErr 0)) = some (0xAB, 0x00) := by decide
theorem test_flipmsb : answer (exec (.flipmsb 0xAA) (withErr 0)) = some (0x2A, 0x00) := by decide

/-! ### One edge -/

/-- LATENCY 0 and a buffer of one response. -/
def fast : Config.Params := { flagBit := Config.flagBit, singleBitOps := true, latency := 0, extraDepth := 0 }
/-- LATENCY 2 and a buffer of two responses, without the optional group. -/
def slow : Config.Params := { flagBit := Config.flagBit, singleBitOps := false, latency := 2, extraDepth := 1 }
/-- A FLAG_BIT other than the default: the kinds from bit 7 down. -/
def fromTheTop : Config.FlagBit :=
  { indexOutOfRange := 7, valueOverflow := 6, lengthInvalid := 5, startBitInvalid := 4, totalLengthExceeded := 3
    distinct := by decide }
/-- A command offered, its response taken if it is on offer. -/
def offer (w : CmdWord) : PortIn := { rst := false, cmdValid := true, cmd := w, rspReady := true }
/-- A command offered, no response taken. -/
def hold (w : CmdWord) : PortIn := { rst := false, cmdValid := true, cmd := w, rspReady := false }
/-- A command offered while `rst` is 1. -/
def resetting (w : CmdWord) : PortIn := { rst := true, cmdValid := true, cmd := w, rspReady := true }
/-- The block as an instance of parameters `p`, with one input to come. -/
def driven (p : Config.Params) (i : PortIn) (s : State) : State := { s with params := p, inputs := [i] }
/-- A block that holds one response, with StartBitInvalid recorded. -/
def full : State := { withErr 0x08 with inFlight := [{ result := 0x55, age := 1 }] }

theorem test_step_runs_fetched_word : answer (step (State.reset.withFetchWord 40 0x0306030155)) = some (0x5D, 0x00) := by decide
theorem test_step_refuses_reserved_word :
    step (State.reset.withFetchWord 40 0x0400000000) = .refused (.reservedOpcode 0x04) := by rfl
theorem test_decodeTableWord : decodeTableWord 40 0x0306030155 = some (.insert 0x55 1 3 6) := by decide
theorem test_latency_zero_answers_in_the_same_cycle :
    outputs (offer 0x0200030155#40) { withErr 0 with params := fast } = { cmdReady := true, rspValid := true, rspData := 0x02 } := by rfl
theorem test_reserved_word_is_owed_a_response :
    (outputs (offer 0x0400000000#40) { withErr 0 with params := fast }).rspValid = true := by rfl
theorem test_full_block_is_not_ready : (outputs (hold 0x0100000000#40) { full with params := fast }).cmdReady = false := by decide
theorem test_reset_edge_discards :
    (match step (driven fast (resetting 0x0200010855#40) full) with
      | .next t => decide (t.err = 0 ∧ t.inFlight = [] ∧ t.delivered = [])
      | .fault _ => false
      | .refused _ => false) = true := by decide
theorem test_flag_of_another_instance :
    answer (exec (.extract 0x55 8 0) { withErr 0 with params := { fast with flagBit := fromTheTop } }) = some (0x55, 0x10) := by
  decide

/-! ### Witnesses: the hypotheses of every statement are met -/

theorem witness_ResetIsReadyWithNoError : PortIn.idle.rst = false ∧ PortIn.idle.cmdValid = false := by decide
theorem witness_ResetEdgeDiscardsEverything :
    (driven fast (resetting 0) full).inputs = [resetting 0] ∧ (resetting 0).rst = true ∧ PortIn.idle.rst = false := by decide
theorem witness_DecodeOfEncode : (Instr.getbit 0xFF 0xFF).wellFormedWith true = true ∧
    (Instr.insert 0xFF 0xFF 0xFF 0xFF).wellFormedWith false = true := by decide
theorem witness_EncodeOfDecode : decodeWith true 0x1BFFFFFFAA#40 = .instr (.flipmsb 0xAA) := by decide
theorem witness_UnreadFieldsIgnored :
    ((0x01 : Byte).toNat < 2) ∧ ((0x02 : Byte).toNat = 2) ∧
    (0x10 ≤ (0x13 : Byte).toNat ∧ (0x13 : Byte).toNat ≤ 0x13) ∧ (0x14 ≤ (0x14 : Byte).toNat ∧ (0x14 : Byte).toNat ≤ 0x1B) ∧
    ((opField (encode (.insert 1 1 1 1))).toNat ≠ 2) ∧ ((opField (encode .clear)).toNat ≠ 3) := by decide
theorem witness_ReservedOpcodesRefused :
    (driven slow (hold 0x1000000055#40) (withErr 0)).inputs = [hold 0x1000000055#40] ∧
    accepts (hold 0x1000000055#40) (driven slow (hold 0x1000000055#40) (withErr 0)) = true ∧
    decodeWith slow.singleBitOps (hold 0x1000000055#40).cmd = .reserved 0x10 := by decide
theorem witness_AssemblerEncodesEveryLine : (∃ n ∈ [0x55, 256], 255 < n) ∧ (255 ≤ 255 ∧ 0 ≤ 255) := by decide
theorem witness_BusCarriesWordUnderAnyByteOrder : ∀ j k : Fin 5, (4 - j = 4 - k) → j = k := by decide
theorem witness_StepRunsDecodedCommand :
    (State.reset.withFetchWord 40 0x0306030155).inputs = [hold 0x0306030155#40] ∧
    accepts (hold 0x0306030155#40) (State.reset.withFetchWord 40 0x0306030155) = true ∧
    decodeWith State.reset.params.singleBitOps (hold 0x0306030155#40).cmd = .instr (.insert 0x55 1 3 6) :=
  ⟨rfl, (offerWord_accepts _ _).1, by decide⟩
theorem witness_EdgeTakesOfferedResponse :
    offered { full with params := fast } = some 0x55 ∧ (offer 0).rspReady = true ∧
    offered { full with params := slow } = none ∧ (hold 0).rspReady = false := by decide
/-- A response taken and a command accepted at one edge, and a response held. -/
theorem witness_PortsHandshake :
    let s := driven { slow with latency := 1 } (offer 0x0200030155#40) full
    (outputs (nextInput s) s = { cmdReady := true, rspValid := true, rspData := 0x55 }) ∧
    (nextInput s).rspReady = true ∧ accepts (nextInput s) s = true ∧
    (∃ t, step s = .next t ∧ t.delivered = [0x55] ∧ t.inFlight.map (·.result) = [0x02]) ∧
    (∃ t, step (driven { slow with latency := 1 } (hold 0) full) = .next t ∧ t.delivered = []) :=
  ⟨rfl, rfl, rfl, ⟨_, rfl, rfl, rfl⟩, ⟨_, rfl, rfl⟩⟩
theorem witness_AccumulateSetsOneFlag : (withErr 0x08).err.getLsbD (Config.flagBit.bit .startBitInvalid).val = true ∧
    (withErr 0x08).err.getLsbD (Config.flagBit.bit .lengthInvalid).val = false ∧
    raises (.extract 0x55 0 9) = some .lengthInvalid := by decide
/-- FlagsAreDistinctSingleBits: an injective assignment. -/
theorem witness_FlagsAreDistinctSingleBits : ∀ j k, fromTheTop.bit j = fromTheTop.bit k → j = k := by
  intro j k; cases j <;> cases k <;> decide
theorem witness_ReservedBitsStayZero : (withErr 0x1F).err &&& reservedBits Config.flagBit = 0 := by decide
theorem witness_ErrChangesInThreeWays : (∃ t, step (driven slow (resetting 0) full) = .next t) ∧
    (∃ t, step (driven slow (hold 0x0100000000#40) full) = .next t) ∧
    (∃ t, step (driven slow (hold 0x0200090055#40) full) = .next t) ∧ (∃ t, step { full with params := slow } = .next t) :=
  ⟨⟨_, rfl⟩, ⟨_, rfl⟩, ⟨_, rfl⟩, ⟨_, rfl⟩⟩
theorem witness_FlagsStickyUntilClearOrReset :
    (∃ t, runSteps 1 (driven slow (hold 0x0200090055#40) full) = .next t) ∧ noReset 1 (driven slow (hold 0x0200090055#40) full) ∧
    Instr.clear ∉ acceptedRun 1 (driven slow (hold 0x0200090055#40) full) ∧ full.err.getLsbD 3 = true :=
  ⟨⟨_, rfl⟩, by simp [noReset, driven, hold], by decide, by decide⟩
theorem witness_KindSetViewAgrees :
    (withErr 0x04).err = encodeKinds Config.flagBit (fun k => decide (k = .lengthInvalid)) := by decide
theorem witness_TwoFailuresUniteThenClear : raises (.extract 0x55 8 1) = some .startBitInvalid ∧
    raises (.insert 0x55 2 0 0) = some .lengthInvalid ∧ ErrorKind.startBitInvalid ≠ .lengthInvalid := by decide
theorem witness_FlagUnionIgnoresOrder :
    [Instr.extract 0x55 8 1, Instr.getbit 0x55 8].Perm [Instr.getbit 0x55 8, Instr.extract 0x55 8 1] ∧
    Instr.clear ∉ [Instr.extract 0x55 8 1, Instr.getbit 0x55 8] := ⟨List.Perm.swap _ _ _, by decide⟩
theorem witness_CommandsIdempotentOnErr : Instr.inspect ≠ .clear ∧ raises .inspect = none ∧
    raises (.getbit 0 8) = some .indexOutOfRange := by decide
theorem witness_ResponseDependsOnOperandsAlone : Instr.inspect ≠ .clear ∧
    (Instr.inspect = .inspect → (withErr 0x08).err = full.err) := ⟨by decide, fun _ => rfl⟩
theorem witness_FirstFailingCheckAlone :
    (8 ≤ (8 : Byte).toNat) ∧
    ((7 : Byte).toNat < 8 ∧ (0 : Byte).toNat = 0 ∧ 8 < (9 : Byte).toNat) ∧
    ((1 : Byte).toNat < 8 ∧ 1 ≤ (8 : Byte).toNat ∧ (8 : Byte).toNat ≤ 8 ∧ 8 < (1 : Byte).toNat + (8 : Byte).toNat) ∧
    ((6 : Byte).toNat + (2 : Byte).toNat ≤ 8 ∧ 2 ^ (2 : Byte).toNat - 1 < (4 : Byte).toNat) ∧
    ((0 : Byte).toNat + (8 : Byte).toNat ≤ 8 ∧ (255 : Byte).toNat ≤ 2 ^ (8 : Byte).toNat - 1) ∧ (7 : Byte).toNat ≤ 7 := by
  decide
/-- The fields at both ends of the byte, and values at both ends of their range. -/
theorem witness_valid_fields_and_values :
    (1 ≤ (1 : Byte).toNat ∧ (7 : Byte).toNat < 8 ∧ (7 : Byte).toNat + (1 : Byte).toNat ≤ 8 ∧
      (1 : Byte).toNat ≤ 2 ^ (1 : Byte).toNat - 1) ∧
    (1 ≤ (8 : Byte).toNat ∧ (0 : Byte).toNat < 8 ∧ (0 : Byte).toNat + (8 : Byte).toNat ≤ 8 ∧
      (255 : Byte).toNat ≤ 2 ^ (8 : Byte).toNat - 1) := by decide
theorem witness_MasksMarkTheField : 1 ≤ 1 ∧ 1 ≤ 8 ∧ 7 + 1 ≤ 8 := by decide
theorem witness_ResultsNeverOverflow : 255 < 256 ∧ 1 ≤ 8 ∧ 0 + 8 ≤ 8 ∧ 255 ≤ 2 ^ 8 - 1 ∧ 7 ≤ 7 := by decide
theorem witness_ExtractReadsField :
    (1 ≤ (8 : Byte).toNat ∧ (0 : Byte).toNat < 8 ∧ (0 : Byte).toNat + (8 : Byte).toNat ≤ 8) ∧
    ¬ (1 ≤ (2 : Byte).toNat ∧ (7 : Byte).toNat < 8 ∧ (7 : Byte).toNat + (2 : Byte).toNat ≤ 8) := by decide
theorem witness_InsertWritesField :
    (1 ≤ (1 : Byte).toNat ∧ (7 : Byte).toNat < 8 ∧ (7 : Byte).toNat + (1 : Byte).toNat ≤ 8 ∧
      (1 : Byte).toNat ≤ 2 ^ (1 : Byte).toNat - 1) ∧
    ¬ (1 ≤ (1 : Byte).toNat ∧ (7 : Byte).toNat < 8 ∧ (7 : Byte).toNat + (1 : Byte).toNat ≤ 8 ∧
      (2 : Byte).toNat ≤ 2 ^ (1 : Byte).toNat - 1) := by decide
theorem witness_ExtractOfInsertIsValue : 1 ≤ (5 : Byte).toNat ∧ (3 : Byte).toNat < 8 ∧
    (3 : Byte).toNat + (5 : Byte).toNat ≤ 8 ∧ (31 : Byte).toNat ≤ 2 ^ (5 : Byte).toNat - 1 := by decide
theorem witness_InsertKeepsBitsOutsideField : 1 ≤ (1 : Byte).toNat ∧ (7 : Byte).toNat < 8 ∧
    (7 : Byte).toNat + (1 : Byte).toNat ≤ 8 := by decide
/-- GetbitReadsBit, SetbitSetsBit, ResetbitClearsBit, FlipbitInvertsBit, SingleBitIsOneBitField: an index on each side. -/
theorem witness_index_on_each_side : (7 : Byte).toNat ≤ 7 ∧ 8 ≤ (8 : Byte).toNat := by decide
theorem witness_FixedPositionIsIndexed (b : Byte) : (Instr.getlsb b, Instr.getbit b 0) ∈
    [(Instr.getlsb b, Instr.getbit b 0), (.getmsb b, .getbit b 7), (.setlsb b, .setbit b 0), (.setmsb b, .setbit b 7),
     (.resetlsb b, .resetbit b 0), (.resetmsb b, .resetbit b 7), (.fliplsb b, .flipbit b 0), (.flipmsb b, .flipbit b 7)] :=
  List.mem_cons_self ..
theorem witness_NoIndexErrorWithoutSingleBitGroup : slow.singleBitOps = false ∧
    (∃ t, runSteps 1 (driven slow (hold 0x0200090055#40) full) = .next t) ∧
    hasFlag slow.flagBit .indexOutOfRange (driven slow (hold 0x0200090055#40) full).err = false ∧
    0x10 ≤ (opField 0x1B00000000#40).toNat ∧ (opField 0x1B00000000#40).toNat ≤ 0x1B :=
  ⟨rfl, ⟨_, rfl⟩, by decide, by decide, by decide⟩
theorem witness_ResponseOfferedAfterLatency :
    let s := { withErr 0 with params := slow, inputs := hold 0x0200030155#40 :: List.replicate 1 PortIn.idle }
    s.inFlight = [] ∧ (hold 0x0200030155#40).rst = false ∧ (hold 0x0200030155#40).cmdValid = true ∧
    (hold 0x0200030155#40).rspReady = false ∧
    decodeWith slow.singleBitOps (hold 0x0200030155#40).cmd = .instr (.extract 0x55 1 3) ∧
    slow.latency ≤ 1 + 1 := by decide
theorem witness_FullBlockAcceptsNothing : (driven fast (hold 0) full).inputs = [hold 0] ∧ (hold 0).rst = false ∧
    (driven fast (hold 0) full).inFlight.length = fast.depth := by decide
theorem witness_ResponsesInAcceptanceOrder :
    (∃ t, runSteps 1 (driven slow (hold 0x0200090055#40) full) = .next t) ∧ noReset 1 (driven slow (hold 0x0200090055#40) full) ∧
    acceptedRun 1 (driven slow (hold 0x0200090055#40) full) = [.extract 0x55 0 9] :=
  ⟨⟨_, rfl⟩, by simp [noReset, driven, hold], by decide⟩
theorem witness_EdgeKeepsInvariant : Inv (driven slow (hold 0x0200090055#40) full) ∧
    (∃ t, step (driven slow (hold 0x0200090055#40) full) = .next t) ∧ Inv State.reset ∧
    (∃ t, step State.reset = .next t) :=
  ⟨⟨by decide, by decide, by decide, by decide⟩, ⟨_, rfl⟩,
    ⟨by decide, Nat.zero_le _, List.Pairwise.nil, fun _ h => nomatch h⟩, ⟨_, rfl⟩⟩

end Sys2Proof.Tests
end

section
/-! PROOFS. What a command leaves, said once for all sixteen, and the two statements of the scope: the invariant of the block and
its parameters (R6, R27, R166, R167), and the results that lie in a byte before they are cut to one (R10). -/

namespace Sys2Proof.Machine

/-! ### What a command leaves -/

/-- R94, R95: a validated command answers once, and leaves ERR as the kind it raises says. -/
theorem validated_raises {c : Instr} (hc : c ≠ .clear) (b r : Byte) (s : State) :
    ∃ r', validated (raises c) b r s = answered r' { s with err := errAfter s.params.flagBit c s.err } := by
  cases h : raises c with
  | none => exact ⟨r, by rw [errAfter_of_none hc h]; rfl⟩
  | some k => exact ⟨b, by rw [errAfter_of_some h]; rfl⟩

/-- R28, R47, R54: the command completes with one response and leaves ERR as `errAfter` says; nothing else changes but the count
of draws, and that only by CLEAR. -/
def CompletesOnce (c : Instr) (s : State) : Prop :=
  ∃ (r : Byte) (d : Nat),
    exec c s = .next { s with
      err := errAfter s.params.flagBit c s.err, inFlight := s.inFlight ++ [{ result := r, age := 0 }], draws := d } ∧
    (c ≠ .clear → d = s.draws)

theorem completesOnce_of_validated {c : Instr} {s : State} {b r : Byte} (hc : c ≠ .clear)
    (h : exec c s = .next (validated (raises c) b r s)) : CompletesOnce c s := by
  obtain ⟨r', hr⟩ := validated_raises hc b r s
  exact ⟨r', s.draws, by rw [h, hr]; rfl, fun _ => rfl⟩

/-- Every command completes: the six that validate through their check, the others by the one response they give. -/
theorem exec_completesOnce (c : Instr) (s : State) : CompletesOnce c s := by
  cases c with
  | inspect => exact ⟨_, _, rfl, fun _ => rfl⟩
  | clear => exact ⟨_, _, rfl, fun h => absurd rfl h⟩
  | extract b sb l => exact completesOnce_of_validated (b := b) nofun rfl
  | insert b sb l v => exact completesOnce_of_validated (b := b) nofun rfl
  | getbit b i => exact completesOnce_of_validated (b := b) nofun rfl
  | setbit b i => exact completesOnce_of_validated (b := b) nofun rfl
  | resetbit b i => exact completesOnce_of_validated (b := b) nofun rfl
  | flipbit b i => exact completesOnce_of_validated (b := b) nofun rfl
  | getlsb b => exact ⟨_, _, rfl, fun _ => rfl⟩
  | getmsb b => exact ⟨_, _, rfl, fun _ => rfl⟩
  | setlsb b => exact ⟨_, _, rfl, fun _ => rfl⟩
  | setmsb b => exact ⟨_, _, rfl, fun _ => rfl⟩
  | resetlsb b => exact ⟨_, _, rfl, fun _ => rfl⟩
  | resetmsb b => exact ⟨_, _, rfl, fun _ => rfl⟩
  | fliplsb b => exact ⟨_, _, rfl, fun _ => rfl⟩
  | flipmsb b => exact ⟨_, _, rfl, fun _ => rfl⟩

/-- The same of a command known to end in `u`, field by field. -/
theorem exec_next_inv {c : Instr} {s u : State} (h : exec c s = .next u) :
    u.params = s.params ∧ u.err = errAfter s.params.flagBit c s.err ∧
      ∃ r, u.inFlight = s.inFlight ++ [{ result := r, age := 0 }] := by
  obtain ⟨r, d, hr, -⟩ := exec_completesOnce c s
  rw [hr] at h
  cases h
  exact ⟨rfl, rfl, r, rfl⟩

/-- R27: no command sets a reserved bit of ERR. -/
theorem errAfter_and_reservedBits (fb : Config.FlagBit) (c : Instr) {err : Byte} (h : err &&& reservedBits fb = 0) :
    errAfter fb c err &&& reservedBits fb = 0 := by
  by_cases hc : c = .clear
  · rw [hc, errAfter_clear]; exact BitVec.zero_and
  · cases hk : raises c with
    | none => rw [errAfter_of_none hc hk, h]
    | some k => rw [errAfter_of_some hk, setFlag_and_reservedBits, h]

/-! ### The invariant along an edge -/

/-- The invariant between the halves of an edge: a command just accepted is not a cycle old yet, the rest of `Inv` holds. -/
structure MidEdgeInv (s : State) : Prop where
  reserved_zero : s.err &&& reservedBits s.params.flagBit = 0
  room : s.inFlight.length ≤ s.params.depth
  in_order : s.inFlight.Pairwise (fun older younger => younger.age < older.age)

theorem Inv.midEdge {s : State} (h : Inv s) : MidEdgeInv s := ⟨h.reserved_zero, h.room, h.in_order⟩

/-- The inputs to come are no part of the invariant. -/
theorem Inv.withInputs {s : State} (h : Inv s) (rest : List PortIn) : Inv { s with inputs := rest } :=
  ⟨h.reserved_zero, h.room, h.in_order, h.aged⟩

/-- R160: reset leaves nothing for the invariant to forbid. -/
theorem midEdgeInv_resetEdge (s : State) : MidEdgeInv (resetEdge s) :=
  ⟨BitVec.zero_and, Nat.zero_le _, List.Pairwise.nil⟩

/-- R167: a command keeps the invariant where there is room for its response, the youngest since every other is aged. -/
theorem Inv.after_exec {c : Instr} {s u : State} (h : Inv s) (room : s.inFlight.length < s.params.depth)
    (hu : exec c s = .next u) : MidEdgeInv u := by
  obtain ⟨hp, he, r, hf⟩ := exec_next_inv hu
  refine ⟨?_, ?_, ?_⟩
  · rw [hp, he]; exact errAfter_and_reservedBits _ c h.reserved_zero
  · simpa [hp, hf] using room
  · rw [hf, List.pairwise_append]
    refine ⟨h.in_order, List.pairwise_singleton .., fun older hOlder younger hYounger => ?_⟩
    rw [List.mem_singleton.1 hYounger]
    exact h.aged older hOlder

/-- Taking the oldest response keeps the order and makes room. -/
theorem MidEdgeInv.after_takeResponse {s : State} (h : MidEdgeInv s) (i : PortIn) : MidEdgeInv (takeResponse i s) where
  reserved_zero := by simpa using h.reserved_zero
  room := by simpa using (takeResponse_sublist i s).length_le.trans h.room
  in_order := h.in_order.sublist (takeResponse_sublist i s)

/-- R166: a cycle keeps the differences of age, and makes every command in flight at least a cycle old. -/
theorem MidEdgeInv.after_tick {s : State} (h : MidEdgeInv s) : Inv (tick s) where
  reserved_zero := h.reserved_zero
  room := by simpa using h.room
  in_order := List.pairwise_map.2 (h.in_order.imp (Nat.add_lt_add_right · 1))
  aged := by simp

theorem MidEdgeInv.after_finishEdge {s : State} (h : MidEdgeInv s) (i : PortIn) : Inv (finishEdge i s) :=
  (h.after_takeResponse i).after_tick

/-- R167: an accepted command finds room. -/
theorem room_of_accepts {i : PortIn} {s : State} (h : accepts i s = true) : s.inFlight.length < s.params.depth := by
  simp only [accepts, cmdReady, Bool.and_eq_true, decide_eq_true_eq] at h
  exact h.2.2

/-- R27, R166, R167: every step keeps the invariant. -/
theorem Inv.after_step {s t : State} (h : Inv s) (hst : step s = .next t) : Inv t := by
  obtain ⟨-, rfl⟩ | ⟨-, -, rfl⟩ | ⟨c, u, -, ha, -, hu, rfl⟩ := step_next_cases hst
  · exact (midEdgeInv_resetEdge _).after_tick
  · exact (h.withInputs _).midEdge.after_finishEdge _
  · exact ((h.withInputs s.inputs.tail).after_exec (room_of_accepts ha) hu).after_finishEdge _

/-- R6: no step changes the parameters of the instance. -/
theorem step_next_params {s t : State} (hst : step s = .next t) : t.params = s.params := by
  obtain ⟨-, rfl⟩ | ⟨-, -, rfl⟩ | ⟨c, u, -, -, -, hu, rfl⟩ := step_next_cases hst
  · rfl
  · rw [finishEdge_params]
  · rw [finishEdge_params]
    exact (exec_next_inv hu).1

/-- Settles O49: by the three kinds of edge, with the invariant between an edge's halves as the intermediate fact. -/
theorem edgeKeepsInvariant : Obligations.EdgeKeepsInvariant :=
  fun _ _ hInv hst => ⟨hInv.after_step hst, step_next_params hst⟩

/-! ### Results before they are cut to a byte (R10) -/

/-- A byte has no bit above bit 7. -/
theorem testBit_eq_false_of_lt_256 {b j : Nat} (hb : b < 256) (hj : 8 ≤ j) : b.testBit j = false :=
  testBit_of_le b 8 j (Nat.le_pred_of_lt hb) hj

theorem extractValue_lt_two_pow (b s : Nat) {l : Nat} (hl : l ≤ 8) : extractValue b s l < 2 ^ l := by
  refine Nat.lt_pow_two_of_testBit _ fun j hj => ?_
  rw [extractValue_testBit b s l j hl, decide_eq_false (by omega), Bool.false_and]

theorem shiftLeft_lt_two_pow {v l : Nat} (hv : v ≤ 2 ^ l - 1) (s : Nat) : v <<< s < 2 ^ (s + l) := by
  have hv' : v < 2 ^ l := Nat.lt_of_le_pred (Nat.two_pow_pos l) hv
  rw [Nat.add_comm]
  exact Nat.shiftLeft_lt hv'

theorem insertValue_lt_256 {b s l v : Nat} (hb : b < 256) (hf : s + l ≤ 8) (hv : v ≤ 2 ^ l - 1) :
    insertValue b s l v < 256 := by
  refine lt_256_of_testBit _ fun j hj => ?_
  rw [insertValue_testBit b s l v j hb hv, if_neg (by omega), testBit_eq_false_of_lt_256 hb hj]

theorem getBitValue_le_one (b i : Nat) : getBitValue b i ≤ 1 := by
  rw [getBitValue_eq]
  exact Bool.toNat_le _

theorem setBitValue_lt_256 {b i : Nat} (hb : b < 256) (hi : i ≤ 7) : setBitValue b i < 256 := by
  refine lt_256_of_testBit _ fun j hj => ?_
  rw [setBitValue_testBit, testBit_eq_false_of_lt_256 hb hj, decide_eq_false (by omega), Bool.false_or]

theorem resetBitValue_lt_256 {b : Nat} (hb : b < 256) (i : Nat) : resetBitValue b i < 256 := by
  refine lt_256_of_testBit _ fun j hj => ?_
  rw [resetBitValue_testBit b i j hb, testBit_eq_false_of_lt_256 hb hj, Bool.and_false]

theorem flipBitValue_lt_256 {b i : Nat} (hb : b < 256) (hi : i ≤ 7) : flipBitValue b i < 256 := by
  refine lt_256_of_testBit _ fun j hj => ?_
  rw [flipBitValue_testBit, testBit_eq_false_of_lt_256 hb hj, decide_eq_false (by omega), Bool.false_xor]

/-- Settles O29: no value has a bit above bit 7, command by command. -/
theorem resultsNeverOverflow : Obligations.ResultsNeverOverflow := by
  refine ⟨fun b s l v hb _ hf hv => ?_, fun b i hb hi => ?_, fun n hn => resultByte_toNat n (Nat.lt_succ_of_le hn)⟩
  · have hl : l ≤ 8 := by omega
    have hx := extractValue_lt_two_pow b s hl
    have hbyte : 2 ^ l ≤ 2 ^ 8 := Nat.pow_le_pow_right (by decide) hl
    exact ⟨hx, Nat.le_of_lt_succ (hx.trans_le hbyte), shiftLeft_lt_two_pow hv s,
      Nat.le_of_lt_succ (insertValue_lt_256 hb hf hv)⟩
  · exact ⟨getBitValue_le_one b i, Nat.le_of_lt_succ (setBitValue_lt_256 hb hi),
      Nat.le_of_lt_succ (resetBitValue_lt_256 hb i), Nat.le_of_lt_succ (flipBitValue_lt_256 hb hi)⟩

end Sys2Proof.Machine
end

section
/-! PROOFS. The error accumulator: how an edge changes it and what stays set along a run (R28, R29), the flags and the reserved
bits (R26, R27), the set-of-kinds view (R31), and the state after reset (R30, R162, R163). -/

namespace Sys2Proof.Machine

/-! ### ERR along one edge -/

/-- No command touches the inputs to come. -/
theorem exec_next_inputs {c : Instr} {s u : State} (h : exec c s = .next u) : u.inputs = s.inputs := by
  obtain ⟨r, d, hr, -⟩ := exec_completesOnce c s
  rw [hr] at h
  cases h
  rfl

/-- No step touches the inputs but to consume the coming ones. -/
theorem step_next_inputs {s t : State} (hst : step s = .next t) : t.inputs = s.inputs.tail := by
  obtain ⟨-, rfl⟩ | ⟨-, -, rfl⟩ | ⟨c, u, -, -, -, hu, rfl⟩ := step_next_cases hst
  · rfl
  · rw [finishEdge_inputs]
  · rw [finishEdge_inputs, exec_next_inputs hu]

/-- R28: an edge resets ERR, or accepts no command and leaves it, or leaves of it what the accepted command does. -/
theorem step_next_err {s t : State} (hst : step s = .next t) :
    ((nextInput s).rst = true ∧ t.err = 0) ∨
    ((nextInput s).rst = false ∧ acceptedCommand s = none ∧ t.err = s.err) ∨
    ((nextInput s).rst = false ∧ ∃ c, acceptedCommand s = some c ∧ t.err = errAfter s.params.flagBit c s.err) := by
  obtain ⟨hr, rfl⟩ | ⟨hr, ha, rfl⟩ | ⟨c, u, hr, ha, hd, hu, rfl⟩ := step_next_cases hst
  · exact .inl ⟨hr, rfl⟩
  · exact .inr (.inl ⟨hr, acceptedCommand_eq_none_of_not_accepts ha, finishEdge_err _ _⟩)
  · obtain ⟨-, he, -⟩ := exec_next_inv hu
    exact .inr (.inr ⟨hr, c, acceptedCommand_eq_some.2 ⟨ha, hd⟩, (finishEdge_err _ _).trans he⟩)

/-- R29: no command other than CLEAR takes a bit of ERR back to 0. -/
theorem errAfter_keeps_bit (fb : Config.FlagBit) {c : Instr} (hc : c ≠ .clear) {err : Byte} {j : Nat}
    (h : err.getLsbD j = true) : (errAfter fb c err).getLsbD j = true := by
  cases hk : raises c with
  | none => rw [errAfter_of_none hc hk, h]
  | some k => rw [errAfter_of_some hk, setFlag_getLsbD, h, Bool.true_or]

/-- R29: no edge without a reset and without a CLEAR takes a bit of ERR back to 0. -/
theorem step_keeps_err_bit {s t : State} (hst : step s = .next t) (hr : (nextInput s).rst = false)
    (hc : acceptedCommand s ≠ some .clear) {j : Nat} (h : s.err.getLsbD j = true) : t.err.getLsbD j = true := by
  obtain ⟨hr', -⟩ | ⟨-, -, he⟩ | ⟨-, c, ha, he⟩ := step_next_err hst
  · rw [hr] at hr'; cases hr'
  · rw [he, h]
  · rw [he]
    exact errAfter_keeps_bit _ (by rintro rfl; exact hc ha) h

/-! ### A run, taken apart at its first edge -/

theorem runSteps_succ_eq_next {n : Nat} {s t : State} :
    runSteps (n + 1) s = .next t ↔ ∃ u, step s = .next u ∧ runSteps n u = .next t := by
  rw [runSteps]
  cases step s <;> simp

theorem acceptedRun_succ (n : Nat) {s u : State} (hst : step s = .next u) :
    acceptedRun (n + 1) s = (acceptedCommand s).toList ++ acceptedRun n u := by
  rw [acceptedRun, hst]

theorem noReset_first {n : Nat} {s : State} (h : noReset (n + 1) s) : (nextInput s).rst = false := by
  unfold nextInput
  cases hi : s.inputs with
  | nil => rfl
  | cons i rest => exact h i (by simp [hi])

theorem noReset_rest {n : Nat} {s u : State} (h : noReset (n + 1) s) (hst : step s = .next u) : noReset n u := by
  intro i hi
  rw [step_next_inputs hst] at hi
  refine h i ?_
  cases hs : s.inputs with
  | nil => simp [hs] at hi
  | cons i' rest =>
    rw [hs] at hi
    exact List.mem_cons_of_mem _ hi

/-- R29: a bit of ERR that is 1 stays 1 along every run without a reset and without a CLEAR. -/
theorem runSteps_keeps_err_bit {j n : Nat} {s t : State} (hrun : runSteps n s = .next t) (hr : noReset n s)
    (hc : Instr.clear ∉ acceptedRun n s) (h : s.err.getLsbD j = true) : t.err.getLsbD j = true := by
  induction n generalizing s with
  | zero => cases hrun; exact h
  | succ n ih =>
    obtain ⟨u, hst, hrest⟩ := runSteps_succ_eq_next.1 hrun
    rw [acceptedRun_succ n hst, List.mem_append, not_or, Option.mem_toList] at hc
    obtain ⟨hFirst, hLater⟩ := hc
    exact ih hrest (noReset_rest hr hst) hLater (step_keeps_err_bit hst (noReset_first hr) hFirst h)

/-- Settles O21: by induction on the number of edges, each of which keeps every set bit. -/
theorem flagsStickyUntilClearOrReset : Obligations.FlagsStickyUntilClearOrReset :=
  ⟨fun _ _ _ hrun hr hc _ h => runSteps_keeps_err_bit hrun hr hc h, fun _ => rfl⟩

/-- Settles O20: by what the accepted command leaves in ERR. -/
theorem errChangesInThreeWays : Obligations.ErrChangesInThreeWays := by
  intro s t hst
  obtain ⟨hr, he⟩ | ⟨hr, ha, he⟩ | ⟨hr, c, ha, he⟩ := step_next_err hst
  · exact .inl ⟨hr, he⟩
  · exact .inr (.inr (.inr ⟨hr, fun _ hc => (nomatch ha.symm.trans hc), he⟩))
  · by_cases hclear : c = .clear
    · subst hclear
      exact .inr (.inl ⟨hr, ha, he.trans (errAfter_clear _ _)⟩)
    · cases hk : raises c with
      | some k => exact .inr (.inr (.inl ⟨hr, c, k, ha, hk, he.trans (errAfter_of_some hk _ _)⟩))
      | none =>
        refine .inr (.inr (.inr ⟨hr, fun c' hc' => ?_, he.trans (errAfter_of_none hclear hk _ _)⟩))
        cases ha.symm.trans hc'
        exact ⟨hclear, hk⟩

/-! ### FLAG_BIT and the reserved bits -/

/-- R26: the FLAG_BIT of an injective assignment of the kinds to bits. -/
def flagBitOf (f : ErrorKind → Fin 8) (hf : Function.Injective f) : Config.FlagBit where
  indexOutOfRange := f .indexOutOfRange
  valueOverflow := f .valueOverflow
  lengthInvalid := f .lengthInvalid
  startBitInvalid := f .startBitInvalid
  totalLengthExceeded := f .totalLengthExceeded
  distinct := (show allKinds.Nodup by decide).map hf

theorem flagBitOf_bit (f : ErrorKind → Fin 8) (hf : Function.Injective f) (k : ErrorKind) : (flagBitOf f hf).bit k = f k := by
  cases k <;> rfl

/-- Settles O17: the assignment's own check gives injectivity, and an injective assignment passes it. -/
theorem flagsAreDistinctSingleBits : Obligations.FlagsAreDistinctSingleBits :=
  ⟨fun fb _ _ h => bit_injective fb h,
    fun f hf => ⟨flagBitOf f fun j k => hf j k, flagBitOf_bit f fun j k => hf j k⟩,
    fun fb k => getLsbD_oneBit (fb.bit k)⟩

/-- Settles O19: what a command leaves in ERR has no reserved bit that was not set before. -/
theorem reservedBitsStayZero : Obligations.ReservedBitsStayZero := by
  intro c st h
  obtain ⟨r, d, hr, -⟩ := exec_completesOnce c st
  exact ⟨⟨_, hr, rfl, errAfter_and_reservedBits _ c h⟩, st.err, rfl, h⟩

/-! ### The set-of-kinds view of ERR (R31) -/

theorem encodeKinds_getLsbD_eq_true (fb : Config.FlagBit) (S : ErrorKind → Bool) (j : Nat) :
    (encodeKinds fb S).getLsbD j = true ↔ ∃ k, S k = true ∧ j = (fb.bit k).val := by
  simp [encodeKinds_getLsbD, mem_allKinds]

/-- The flag of a kind is read back from `encode(S)` exactly for the kinds of `S`, since distinct kinds have distinct bits. -/
theorem hasFlag_encodeKinds (fb : Config.FlagBit) (S : ErrorKind → Bool) (k : ErrorKind) :
    hasFlag fb k (encodeKinds fb S) = S k := by
  rw [hasFlag, Bool.eq_iff_iff, encodeKinds_getLsbD_eq_true]
  constructor
  · rintro ⟨k', hS, hbit⟩
    rwa [bit_injective fb (Fin.ext hbit)]
  · exact fun hS => ⟨k, hS, rfl⟩

theorem encodeKinds_injective (fb : Config.FlagBit) : Function.Injective (encodeKinds fb) := by
  intro S T h
  funext k
  rw [← hasFlag_encodeKinds fb S k, h, hasFlag_encodeKinds]

theorem encodeKinds_empty (fb : Config.FlagBit) : encodeKinds fb (fun _ => false) = 0 := rfl

/-- R80: accumulating a kind adds it to the set. -/
theorem setFlag_encodeKinds (fb : Config.FlagBit) (k : ErrorKind) (S : ErrorKind → Bool) :
    setFlag fb k (encodeKinds fb S) = encodeKinds fb (fun j => S j || decide (j = k)) := by
  refine BitVec.eq_of_getLsbD_eq fun j _ => ?_
  rw [setFlag_getLsbD, Bool.eq_iff_iff, encodeKinds_getLsbD_eq_true, Bool.or_eq_true, encodeKinds_getLsbD_eq_true]
  simp only [Bool.or_eq_true, decide_eq_true_eq, or_and_right, exists_or, exists_eq_left]

theorem kindsAfter_clear (S : ErrorKind → Bool) : kindsAfter .clear S = fun _ => false := rfl

theorem kindsAfter_of_some {c : Instr} {k : ErrorKind} (h : raises c = some k) (S : ErrorKind → Bool) :
    kindsAfter c S = fun j => S j || decide (j = k) := by
  have hc : c ≠ .clear := by rintro rfl; cases h
  rw [kindsAfter, if_neg hc, h]

theorem kindsAfter_of_none {c : Instr} (hc : c ≠ .clear) (h : raises c = none) (S : ErrorKind → Bool) :
    kindsAfter c S = S := by
  rw [kindsAfter, if_neg hc, h]

/-- R31: the set view simulates the bit view along every command. -/
theorem errAfter_encodeKinds (fb : Config.FlagBit) (c : Instr) (S : ErrorKind → Bool) :
    errAfter fb c (encodeKinds fb S) = encodeKinds fb (kindsAfter c S) := by
  by_cases hc : c = .clear
  · rw [hc, errAfter_clear, kindsAfter_clear, encodeKinds_empty]
  · cases hk : raises c with
    | some k => rw [errAfter_of_some hk, kindsAfter_of_some hk, setFlag_encodeKinds]
    | none => rw [errAfter_of_none hc hk, kindsAfter_of_none hc hk]

/-- Settles O22: by the simulation of the bit view along every command. -/
theorem kindSetViewAgrees : Obligations.KindSetViewAgrees := by
  refine ⟨fun fb _ _ h => encodeKinds_injective fb h, fun c S st hS => ⟨?_, ?_⟩, fun _ => rfl, rfl⟩
  · obtain ⟨r, d, hr, -⟩ := exec_completesOnce c st
    exact ⟨_, hr, by rw [hS, errAfter_encodeKinds]⟩
  · rw [← hS]
    rfl

/-! ### The state after reset -/

/-- R54: no command is accepted where none is offered. -/
theorem accepts_false_of_not_cmdValid {i : PortIn} (s : State) (h : i.cmdValid = false) : accepts i s = false := by
  rw [accepts, h, Bool.false_and]

theorem offered_of_nothing_inFlight {s : State} (h : s.inFlight = []) : offered s = none := by
  rw [offered, h]

/-- R33: a block with nothing in flight offers no response in a cycle that accepts no command. -/
theorem offeredIn_eq_none {i : PortIn} {s : State} (ha : accepts i s = false) (h : s.inFlight = []) :
    offeredIn i s = none := by
  have hcommand : acceptCommand i s = .next s := by rw [acceptCommand, ha]; rfl
  rw [offeredIn, hcommand]
  split
  · rfl
  · exact offered_of_nothing_inFlight h

/-- R167: without reset the block is ready while nothing is in flight, whatever its depth. -/
theorem cmdReady_of_nothing_inFlight {i : PortIn} {s : State} (hr : i.rst = false) (h : s.inFlight = []) :
    cmdReady i s = true := by
  simp [cmdReady, hr, h, Config.Params.depth]

/-- Settles O1: nothing is in flight after reset, so there is room for a command and no response to offer. -/
theorem resetIsReadyWithNoError : Obligations.ResetIsReadyWithNoError := by
  refine ⟨rfl, rfl, fun p i hr => cmdReady_of_nothing_inFlight hr rfl, fun p i hv => ?_⟩
  rw [outputs, offeredIn_eq_none (accepts_false_of_not_cmdValid _ hv) rfl]
  rfl

/-- Settles O50: ERR is 0 and nothing is in flight, so each clause of the invariant is about nothing. -/
theorem resetMeetsInvariant : Obligations.ResetMeetsInvariant := fun _ =>
  ⟨BitVec.zero_and, Nat.zero_le _, List.Pairwise.nil, nofun⟩

end Sys2Proof.Machine
end

section
/-! PROOFS. The command port: the word a byte-wide bus carries (R43), the edge that runs a command, what a command's response
depends on (R47, R48), and the refinement of every run of edges to the accepted commands one at a time (R48, R167). -/

namespace Sys2Proof

/-! ### A command word over a byte-wide bus (R43) -/

/-- A byte of the word, put back in its place, holds the word's own bits there and 0 elsewhere. -/
theorem placeByte_cmdByte_getLsbD (w : CmdWord) (m : Fin 5) {j : Nat} (hj : j < 40) :
    (placeByte (cmdByte w m) m).getLsbD j = (decide (m.val = j / 8) && w.getLsbD j) := by
  have hplaced : (placeByte (cmdByte w m) m).getLsbD j =
      (!decide (j < 8 * m.val) && (decide (j - 8 * m.val < 8) && w.getLsbD (8 * m.val + (j - 8 * m.val)))) := by
    simp [placeByte, cmdByte, hj]
  rw [hplaced]
  by_cases hm : m.val = j / 8
  · have hle : 8 * m.val ≤ j := by omega
    have hlt : j - 8 * m.val < 8 := by omega
    rw [Nat.add_sub_cancel' hle, decide_eq_false hle.not_gt, decide_eq_true hlt, decide_eq_true hm]
    rfl
  · have hout : j < 8 * m.val ∨ ¬ j - 8 * m.val < 8 := by omega
    rcases hout with h | h <;> simp [h, hm]

/-- Settles O9: an injective order names every byte, so each bit of the word comes back from the byte that carried it. -/
theorem busCarriesWordUnderAnyByteOrder : Obligations.BusCarriesWordUnderAnyByteOrder := by
  intro order hinj w
  have hsurj : Function.Surjective order := Finite.surjective_of_injective hinj
  refine congrArg some (BitVec.eq_of_getLsbD_eq fun j hj => ?_)
  have hcarried : ∃ k, (order k).val = j / 8 := by
    obtain ⟨k, hk⟩ := hsurj ⟨j / 8, by omega⟩
    exact ⟨k, congrArg Fin.val hk⟩
  simp only [BitVec.getLsbD_or, placeByte_cmdByte_getLsbD w _ hj, ← Bool.and_or_distrib_right, ← Bool.decide_or]
  rw [decide_eq_true (by simpa [Fin.exists_fin_succ, or_assoc] using hcarried), Bool.true_and]

end Sys2Proof

namespace Sys2Proof.Machine

/-! ### One command -/

/-- Settles O13: what every command does, command by command. -/
theorem everyCommandAnswersOnce : Obligations.EveryCommandAnswersOnce :=
  exec_completesOnce

/-- R47: a command leaves ERR unchanged the second time. -/
theorem errAfter_errAfter (fb : Config.FlagBit) (c : Instr) (err : Byte) :
    errAfter fb c (errAfter fb c err) = errAfter fb c err := by
  by_cases hc : c = .clear
  · rw [hc, errAfter_clear, errAfter_clear]
  · cases hk : raises c with
    | none => rw [errAfter_of_none hc hk, errAfter_of_none hc hk]
    | some k => rw [errAfter_of_some hk, errAfter_of_some hk, setFlag, setFlag, BitVec.or_assoc, BitVec.or_self]

/-- Settles O25: by what a command leaves in ERR, and that it leaves the same of that. -/
theorem commandsIdempotentOnErr : Obligations.CommandsIdempotentOnErr := by
  intro c st
  obtain ⟨r, d, hOnce, -⟩ := exec_completesOnce c st
  obtain ⟨r', d', hTwice, -⟩ := exec_completesOnce c
    { st with err := errAfter st.params.flagBit c st.err, inFlight := st.inFlight ++ [{ result := r, age := 0 }], draws := d }
  refine ⟨r, _, d, _, hOnce, fun hc hk => errAfter_of_none hc hk _ _, fun k hk => errAfter_of_some hk _ _, ?_, hTwice,
    errAfter_errAfter _ c st.err⟩
  rintro rfl
  exact errAfter_clear _ _

/-- R48: the command answers `r`, and leaves of ERR what `errAfter` says, in every state; INSPECT where ERR is `e`. -/
def AnswersFrom (e : Byte) (c : Instr) (r : Byte) : Prop :=
  ∀ s : State, (c = .inspect → s.err = e) →
    exec c s = .next (answered r { s with err := errAfter s.params.flagBit c s.err })

/-- R94, R95: which response a validated command gives is decided by its check, whatever the state. -/
theorem answersFrom_of_validated {c : Instr} {b r : Byte} (e : Byte) (hc : c ≠ .clear)
    (h : ∀ s, exec c s = .next (validated (raises c) b r s)) : ∃ r', AnswersFrom e c r' := by
  cases hk : raises c with
  | none => exact ⟨r, fun s _ => by rw [h, validated_of_none hk, errAfter_of_none hc hk]⟩
  | some k => exact ⟨b, fun s _ => by rw [h, validated_of_some hk, errAfter_of_some hk]; rfl⟩

/-- R48: the response of every command but CLEAR is a function of its operands, INSPECT's of ERR. -/
theorem exists_answersFrom {c : Instr} (hc : c ≠ .clear) (e : Byte) : ∃ r, AnswersFrom e c r := by
  cases c with
  | inspect => exact ⟨e, fun s he => by rw [← he rfl]; rfl⟩
  | clear => exact absurd rfl hc
  | extract b sb l => exact answersFrom_of_validated (b := b) e hc fun _ => rfl
  | insert b sb l v => exact answersFrom_of_validated (b := b) e hc fun _ => rfl
  | getbit b i => exact answersFrom_of_validated (b := b) e hc fun _ => rfl
  | setbit b i => exact answersFrom_of_validated (b := b) e hc fun _ => rfl
  | resetbit b i => exact answersFrom_of_validated (b := b) e hc fun _ => rfl
  | flipbit b i => exact answersFrom_of_validated (b := b) e hc fun _ => rfl
  | getlsb b => exact ⟨_, fun _ _ => rfl⟩
  | getmsb b => exact ⟨_, fun _ _ => rfl⟩
  | setlsb b => exact ⟨_, fun _ _ => rfl⟩
  | setmsb b => exact ⟨_, fun _ _ => rfl⟩
  | resetlsb b => exact ⟨_, fun _ _ => rfl⟩
  | resetmsb b => exact ⟨_, fun _ _ => rfl⟩
  | fliplsb b => exact ⟨_, fun _ _ => rfl⟩
  | flipmsb b => exact ⟨_, fun _ _ => rfl⟩

/-- Settles O26: the one response of `AnswersFrom` serves both states. -/
theorem responseDependsOnOperandsAlone : Obligations.ResponseDependsOnOperandsAlone := by
  intro c st st' hc herr
  obtain ⟨r, hr⟩ := exists_answersFrom hc st.err
  exact ⟨r, _, _, hr st fun _ => rfl, hr st' fun hi => (herr hi).symm, rfl, rfl⟩

/-! ### The edge that runs a command -/

theorem rst_of_accepts {i : PortIn} {s : State} (h : accepts i s = true) : i.rst = false := by
  cases hr : i.rst with
  | false => rfl
  | true => rw [accepts_false_of_rst s hr] at h; cases h

/-- R54: the edge that accepts a command is the command's effect, then what the edge adds. -/
theorem step_of_accepts {s u : State} {c : Instr} (ha : accepts (nextInput s) s = true)
    (hd : decodeWith s.params.singleBitOps (nextInput s).cmd = .instr c)
    (hu : exec c { s with inputs := s.inputs.tail } = .next u) : step s = .next (finishEdge (nextInput s) u) := by
  have hcommand : acceptCommand (nextInput s) { s with inputs := s.inputs.tail } = .next u := by
    rw [acceptCommand, if_pos (show accepts (nextInput s) { s with inputs := s.inputs.tail } = true from ha), issue, hd]
    exact hu
  rw [step, nextEdge, edge, rst_of_accepts ha, hcommand]
  rfl

/-- Settles O10: the command completes, and the edge finishes from where it ends. -/
theorem stepRunsDecodedCommand : Obligations.StepRunsDecodedCommand := by
  intro s i rest c hs ha hd
  have hi : nextInput s = i := by rw [nextInput, hs]; rfl
  have hrest : s.inputs.tail = rest := by rw [hs]; rfl
  subst hi hrest
  obtain ⟨r, d, hu, -⟩ := exec_completesOnce c { s with inputs := s.inputs.tail }
  exact ⟨_, hu, step_of_accepts ha hd hu, finishEdge_err _ _, finishEdge_inputs _ _⟩

/-! ### Runs of edges as commands one at a time (R48, R167) -/

/-- R48: carried out alone at the same ERR, a command gives the response and the ERR it gives in the state it ran in. -/
theorem answers_of_exec {c : Instr} {s u : State} (hu : exec c s = .next u) :
    ∃ r, responses u = responses s ++ [r] ∧ Answers s.params s.err c r u.err := by
  by_cases hc : c = .clear
  · subst hc
    cases hu
    exact ⟨Config.unspecResult s.draws, by simp [responses], _, rfl, rfl, .inl rfl⟩
  · obtain ⟨r, hr⟩ := exists_answersFrom hc s.err
    cases (hr s fun _ => rfl).symm.trans hu
    exact ⟨r, by simp [responses], _, hr _ fun _ => rfl, rfl, .inr rfl⟩

theorem serves_singleton {p : Config.Params} {e e' : Byte} {c : Instr} {r : Byte} (h : Answers p e c r e') :
    Serves p e [c] [r] e' :=
  ⟨e', h, rfl⟩

/-- Commands served one after another are served as one sequence. -/
theorem Serves.append {p : Config.Params} {e e₁ e₂ : Byte} {cs cs' : List Instr} {rs rs' : List Byte}
    (h : Serves p e cs rs e₁) (h' : Serves p e₁ cs' rs' e₂) : Serves p e (cs ++ cs') (rs ++ rs') e₂ := by
  induction cs generalizing e rs with
  | nil =>
    cases rs with
    | nil => cases h; exact h'
    | cons r rs => exact h.elim
  | cons c cs ih =>
    cases rs with
    | nil => exact h.elim
    | cons r rs =>
      obtain ⟨e', hc, hrest⟩ := h
      exact ⟨e', hc, ih hrest⟩

/-- R48, R54: an edge without reset serves the command it accepts, if it accepts one, and keeps every other response. -/
theorem step_serves {s t : State} (hst : step s = .next t) (hr : (nextInput s).rst = false) :
    ∃ rs, responses t = responses s ++ rs ∧ Serves s.params s.err (acceptedCommand s).toList rs t.err := by
  obtain ⟨hr', -⟩ | ⟨-, ha, rfl⟩ | ⟨c, u, -, ha, hd, hu, rfl⟩ := step_next_cases hst
  · rw [hr] at hr'; cases hr'
  · rw [acceptedCommand_eq_none_of_not_accepts ha, responses_finishEdge, finishEdge_err]
    exact ⟨[], (List.append_nil _).symm, rfl⟩
  · obtain ⟨r, hresp, hans⟩ := answers_of_exec hu
    rw [acceptedCommand_eq_some.2 ⟨ha, hd⟩, responses_finishEdge, finishEdge_err]
    exact ⟨[r], hresp, serves_singleton hans⟩

/-- Settles O48: by induction on the number of edges, each of which serves the command it accepts. -/
theorem responsesInAcceptanceOrder : Obligations.ResponsesInAcceptanceOrder := by
  intro n
  induction n with
  | zero =>
    intro s t hrun _
    cases hrun
    exact ⟨[], (List.append_nil _).symm, rfl⟩
  | succ n ih =>
    intro s t hrun hr
    obtain ⟨u, hst, hrest⟩ := runSteps_succ_eq_next.1 hrun
    obtain ⟨rs, hresp, hserves⟩ := step_serves hst (noReset_first hr)
    obtain ⟨rs', hresp', hserves'⟩ := ih u t hrest (noReset_rest hr hst)
    rw [step_next_params hst] at hserves'
    rw [acceptedRun_succ n hst]
    exact ⟨rs ++ rs', by rw [hresp', hresp, List.append_assoc], hserves.append hserves'⟩

end Sys2Proof.Machine
end

section
/-! PROOFS. The encoding of the commands: the decoder and the encoder are inverse up to the fields a command does not read (R57,
R58), the reserved opcodes and their refusal (R59, R60), the assembler's lines (R61), and the handshakes at the ports (R54,
R166). -/

namespace Sys2Proof

/-! ### Decoding (R57) -/

/-- R57: every command's encoding has a row, which rebuilds the command. -/
theorem encode_has_row (c : Instr) : Laws.EncodedOpcode.Statement c := by
  cases c with
  | inspect => exact Laws.EncodedOpcode.inspect
  | clear => exact Laws.EncodedOpcode.clear
  | extract b s l => exact Laws.EncodedOpcode.extract b s l
  | insert b s l v => exact Laws.EncodedOpcode.insert b s l v
  | getbit b i => exact Laws.EncodedOpcode.getbit b i
  | setbit b i => exact Laws.EncodedOpcode.setbit b i
  | resetbit b i => exact Laws.EncodedOpcode.resetbit b i
  | flipbit b i => exact Laws.EncodedOpcode.flipbit b i
  | getlsb b => exact Laws.EncodedOpcode.getlsb b
  | getmsb b => exact Laws.EncodedOpcode.getmsb b
  | setlsb b => exact Laws.EncodedOpcode.setlsb b
  | setmsb b => exact Laws.EncodedOpcode.setmsb b
  | resetlsb b => exact Laws.EncodedOpcode.resetlsb b
  | resetmsb b => exact Laws.EncodedOpcode.resetmsb b
  | fliplsb b => exact Laws.EncodedOpcode.fliplsb b
  | flipmsb b => exact Laws.EncodedOpcode.flipmsb b

/-- Settles O4: the encoding's row rebuilds the command, which the instance has. -/
theorem decodeOfEncode : Obligations.DecodeOfEncode := by
  intro sb c hc
  obtain ⟨m, hrow, hbuild⟩ := encode_has_row c
  rw [decodeWith_of_row sb hrow, hbuild, if_pos hc]

/-- R57: an instance with the single-bit group decodes every encoding. -/
theorem decodeWith_true_encode (c : Instr) : decodeWith true (encode c) = .instr c :=
  decodeOfEncode true c rfl

theorem encode_injective : Function.Injective encode := by
  intro c d h
  have hdecoded : Decoded.instr c = .instr d := by
    rw [← decodeWith_true_encode c, h, decodeWith_true_encode]
  exact Decoded.instr.inj hdecoded

/-- Settles O3: by decoding each word. -/
theorem specWordsDecode : Obligations.SpecWordsDecode := by
  unfold Obligations.SpecWordsDecode
  decide

/-! ### Encoding a decoded word (R57, R58) -/

/-- R57, R58: the word of five fields with those its opcode does not read written as 0. -/
def canonicalWord (op v l s b : Byte) : CmdWord :=
  cmdWord op (if op.toNat = 3 then v else 0) (if op.toNat = 2 ∨ op.toNat = 3 then l else 0)
    (if op.toNat < 2 ∨ 0x14 ≤ op.toNat then 0 else s) (if op.toNat < 2 then 0 else b)

/-- R57, R58: re-encoding the command of a row keeps the fields the row reads, row by row. -/
theorem encode_build_of_mem {op : Byte} {m : Mnemonic} (h : (op, m) ∈ opcodeRows) (v l s b : Byte) :
    encode (m.build v l s b) = canonicalWord op v l s b := by
  have hrows : ∀ r ∈ opcodeRows, encode (r.2.build v l s b) = canonicalWord r.1 v l s b := by
    simp [opcodeRows, Mnemonic.build, encode, canonicalWord]
  exact hrows (op, m) h

/-- R57, R60: a word that decodes to a command has a row, which builds the command from the word's fields. -/
theorem row_of_decodeWith {sb : Bool} {w : CmdWord} {c : Instr} (h : decodeWith sb w = .instr c) :
    ∃ m, rowOf (opField w) = some m ∧ m.build (vField w) (lField w) (sField w) (bField w) = c := by
  cases hrow : rowOf (opField w) with
  | none => rw [decodeWith_of_no_row sb hrow] at h; cases h
  | some m =>
    rw [decodeWith_of_row sb hrow] at h
    split at h
    · exact ⟨m, rfl, Decoded.instr.inj h⟩
    · cases h

/-- R58: re-encoding a decoded word gives it back with its unread fields 0. -/
theorem encode_of_decodeWith {sb : Bool} {w : CmdWord} {c : Instr} (h : decodeWith sb w = .instr c) :
    encode c = canonicalWord (opField w) (vField w) (lField w) (sField w) (bField w) := by
  obtain ⟨m, hrow, rfl⟩ := row_of_decodeWith h
  exact encode_build_of_mem ((rowOf_eq_some _ _).1 hrow) _ _ _ _

/-- Settles O5: the re-encoded word is the canonical one, read field by field. -/
theorem encodeOfDecode : Obligations.EncodeOfDecode := by
  intro sb w c h
  rw [encode_of_decodeWith h, canonicalWord]
  exact ⟨opField_cmdWord .., bField_cmdWord .., sField_cmdWord .., lField_cmdWord .., vField_cmdWord ..⟩

/-! ### Fields that are not read (R58) -/

/-- R58: words with the same canonical word decode alike, since the encoder tells commands apart. -/
theorem decodeWith_cmdWord_congr {op v l s b v' l' s' b' : Byte}
    (h : canonicalWord op v l s b = canonicalWord op v' l' s' b') (sb : Bool) :
    decodeWith sb (cmdWord op v l s b) = decodeWith sb (cmdWord op v' l' s' b') := by
  cases hrow : rowOf op with
  | none => rw [decodeWith_of_no_row sb (by simpa using hrow), decodeWith_of_no_row sb (by simpa using hrow)]; simp
  | some m =>
    have hmem := (rowOf_eq_some op m).1 hrow
    have hbuild : m.build v l s b = m.build v' l' s' b' :=
      encode_injective (by rw [encode_build_of_mem hmem, encode_build_of_mem hmem, h])
    rw [decodeWith_of_row sb (by simpa using hrow), decodeWith_of_row sb (by simpa using hrow)]
    simp [hbuild]

end Sys2Proof

namespace Sys2Proof.Machine

/-- R58: the block meets a word only through its decoder. -/
theorem sameCommand_of_decodeWith {w w' : CmdWord} (h : ∀ sb, decodeWith sb w = decodeWith sb w') : SameCommand w w' := by
  have hissue : ∀ st : State, issue w st = issue w' st := fun st => by rw [issue, issue, h]
  refine ⟨h, hissue, fun i st => ?_⟩
  have haccept : acceptCommand { i with cmd := w } st = acceptCommand { i with cmd := w' } st := by
    rw [acceptCommand, acceptCommand, hissue]; rfl
  rw [edge, edge, haccept]; rfl

/-- R58: two words of one opcode that agree in the fields it reads are the same command. -/
theorem sameCommand_of_read_fields_eq {op v l s b v' l' s' b' : Byte} (hv : op.toNat = 3 → v = v')
    (hl : op.toNat = 2 ∨ op.toNat = 3 → l = l') (hs : ¬ (op.toNat < 2 ∨ 0x14 ≤ op.toNat) → s = s')
    (hb : ¬ op.toNat < 2 → b = b') : SameCommand (cmdWord op v l s b) (cmdWord op v' l' s' b') := by
  refine sameCommand_of_decodeWith (decodeWith_cmdWord_congr ?_)
  rw [canonicalWord, canonicalWord, ite_congr rfl hv fun _ => rfl, ite_congr rfl hl fun _ => rfl,
    ite_congr rfl (fun _ => rfl) hs, ite_congr rfl (fun _ => rfl) hb]

/-- Settles O6: the encoder writes canonical words, and words that differ in unread fields have one canonical word. -/
theorem unreadFieldsIgnored : Obligations.UnreadFieldsIgnored := by
  refine ⟨fun c => ?_, fun op v l s b v' l' s' b' => ⟨fun h => ?_, fun h => ?_, fun h h' => ?_, fun h h' => ?_⟩⟩
  · obtain ⟨-, hb, hs, hl, hv⟩ := encodeOfDecode true (encode c) c (decodeWith_true_encode c)
    refine ⟨fun h => ?_, fun h h' => ?_, fun h => ?_, fun h => ?_⟩
    · rw [hv, if_neg h]
    · rw [hl, if_neg (not_or.2 ⟨h, h'⟩)]
    · rw [hs, if_pos h]
    · rw [hb, if_pos h]
  · exact sameCommand_of_read_fields_eq (by omega) (by omega) (by omega) (by omega)
  · exact sameCommand_of_read_fields_eq (by omega) (fun _ => rfl) (fun _ => rfl) (fun _ => rfl)
  · exact sameCommand_of_read_fields_eq (by omega) (by omega) (fun _ => rfl) (fun _ => rfl)
  · exact sameCommand_of_read_fields_eq (by omega) (by omega) (by omega) (fun _ => rfl)

end Sys2Proof.Machine

namespace Sys2Proof

/-! ### The reserved opcodes (R59, R60) -/

/-- R57: the rows of the single-bit group. -/
theorem isSingleBit_build_of_mem {op : Byte} {m : Mnemonic} (h : (op, m) ∈ opcodeRows) (v l s b : Byte) :
    (m.build v l s b).isSingleBit = decide (0x10 ≤ op.toNat ∧ op.toNat ≤ 0x1B) := by
  have hrows : ∀ r ∈ opcodeRows, (r.2.build v l s b).isSingleBit = decide (0x10 ≤ r.1.toNat ∧ r.1.toNat ≤ 0x1B) := by
    simp [opcodeRows, Mnemonic.build, Instr.isSingleBit]
  exact hrows (op, m) h

/-- R109: the command of a row is missing exactly where the row is of the group and the instance lacks it. -/
theorem not_wellFormedWith_build {op : Byte} {m : Mnemonic} (h : rowOf op = some m) (sb : Bool) (v l s b : Byte) :
    ¬ (m.build v l s b).wellFormedWith sb = true ↔ 0x10 ≤ op.toNat ∧ op.toNat ≤ 0x1B ∧ sb = false := by
  rw [Instr.wellFormedWith, isSingleBit_build_of_mem ((rowOf_eq_some op m).1 h)]
  cases sb <;> simp

/-- R59, R60: a word is refused where its opcode has no row, or has one that this instance lacks. -/
theorem decodeWith_eq_reserved_iff (sb : Bool) (w : CmdWord) :
    decodeWith sb w = .reserved (opField w) ↔
      rowOf (opField w) = none ∨ (0x10 ≤ (opField w).toNat ∧ (opField w).toNat ≤ 0x1B ∧ sb = false) := by
  cases hrow : rowOf (opField w) with
  | none => simp [decodeWith_of_no_row sb hrow]
  | some m =>
    rw [decodeWith_of_row sb hrow, ← not_wellFormedWith_build hrow sb (vField w) (lField w) (sField w) (bField w)]
    split <;> simp [*]

/-- R60: the decoder answers a command or the word's own opcode. -/
theorem decodeWith_total (sb : Bool) (w : CmdWord) :
    decodeWith sb w = .reserved (opField w) ∨ ∃ c, decodeWith sb w = .instr c := by
  cases hrow : rowOf (opField w) with
  | none => exact .inl (decodeWith_of_no_row sb hrow)
  | some m =>
    rw [decodeWith_of_row sb hrow]
    split
    · exact .inr ⟨_, rfl⟩
    · exact .inl rfl

end Sys2Proof

namespace Sys2Proof.Machine

/-- R59: an edge that accepts a reserved word is refused by the opcode's name. -/
theorem step_of_accepts_reserved {s : State} {op : Byte} (ha : accepts (nextInput s) s = true)
    (hd : decodeWith s.params.singleBitOps (nextInput s).cmd = .reserved op) :
    step s = .refused (.reservedOpcode op) := by
  have hcommand : acceptCommand (nextInput s) { s with inputs := s.inputs.tail } = .refused (.reservedOpcode op) := by
    rw [acceptCommand, if_pos (show accepts (nextInput s) { s with inputs := s.inputs.tail } = true from ha), issue, hd]
  rw [step, nextEdge, edge, rst_of_accepts ha, hcommand]
  rfl

/-- Settles O7: by the opcodes that have no row, and those whose row needs the single-bit group. -/
theorem reservedOpcodesRefused : Obligations.ReservedOpcodesRefused := by
  refine ⟨fun sb w => ⟨?_, decodeWith_total sb w⟩, fun s i rest op hs ha hd => ?_⟩
  · rw [decodeWith_eq_reserved_iff, rowOf_eq_none, or_assoc]
  · have hi : nextInput s = i := by rw [nextInput, hs]; rfl
    subst hi
    exact step_of_accepts_reserved ha hd

end Sys2Proof.Machine

namespace Sys2Proof

/-! ### The assembler (R61) -/

theorem asmOperand_eq_none {n : Nat} (h : 255 < n) : asmOperand n = none :=
  if_neg (Nat.not_le_of_lt h)

theorem asmOperand_toNat (a : Byte) : asmOperand a.toNat = some a := by
  rw [asmOperand, if_pos (Nat.le_of_lt_succ a.isLt), BitVec.ofNat_toNat, BitVec.setWidth_eq]

/-- R61: one operand out of range makes the line's operands none. -/
theorem mapM_asmOperand_eq_none {operands : List Nat} (h : ∃ n ∈ operands, 255 < n) : operands.mapM asmOperand = none := by
  induction operands with
  | nil => simp at h
  | cons n ns ih =>
    rw [List.mapM_cons]
    obtain hn | hns := List.exists_mem_cons_iff .. |>.1 h
    · rw [asmOperand_eq_none hn]; rfl
    · rw [ih hns]; cases asmOperand n <;> rfl

theorem mapM_asmOperand_toNat (bytes : List Byte) : (bytes.map (·.toNat)).mapM asmOperand = some bytes := by
  induction bytes with
  | nil => rfl
  | cons a as ih => rw [List.map_cons, List.mapM_cons, asmOperand_toNat, ih]; rfl

/-- R61: a line whose operands are bytes in their written order assembles to the encoding of its command. -/
theorem assemble_of_ofOperands {m : Mnemonic} {bytes : List Byte} {c : Instr} (h : m.ofOperands bytes = some c) :
    assemble m (bytes.map (·.toNat)) = .ok (encode c) := by
  rw [assemble, mapM_asmOperand_toNat]
  simp only [h]

/-- R61: a command word as a number. -/
theorem cmdWord_toNat (op v l s b : Byte) : (cmdWord op v l s b).toNat =
    (op.toNat <<< 32) ||| (v.toNat <<< 24) ||| (l.toNat <<< 16) ||| (s.toNat <<< 8) ||| b.toNat := by
  have happend : (op ++ v ++ l ++ s ++ b).toNat =
      (op.toNat <<< 32) ||| (v.toNat <<< 24) ||| (l.toNat <<< 16) ||| (s.toNat <<< 8) ||| b.toNat := by
    simp only [BitVec.toNat_append, Nat.shiftLeft_or_distrib, ← Nat.shiftLeft_add]
  exact happend

/-- R61: the number a line assembles to. -/
theorem assemble_number {m : Mnemonic} {bytes : List Byte} {c : Instr} {op v l s b : Byte}
    (h : m.ofOperands bytes = some c) (hw : encode c = cmdWord op v l s b) :
    (assemble m (bytes.map (·.toNat))).map (·.toNat) =
      .ok ((op.toNat <<< 32) ||| (v.toNat <<< 24) ||| (l.toNat <<< 16) ||| (s.toNat <<< 8) ||| b.toNat) := by
  rw [assemble_of_ofOperands h, Except.map, hw, cmdWord_toNat]

/-- R61: a line without operands. -/
theorem assemble_bare_line {m : Mnemonic} {c : Instr} {op : Byte} (h : m.ofOperands [] = some c)
    (hw : encode c = cmdWord op 0 0 0 0) : (assemble m []).map (·.toNat) = .ok (op.toNat <<< 32) :=
  (assemble_number h hw).trans (by simp)

/-- R61: a line of the byte alone. -/
theorem assemble_byte_line {m : Mnemonic} {c : Instr} {op b : Byte} (h : m.ofOperands [b] = some c)
    (hw : encode c = cmdWord op 0 0 0 b) : (assemble m [b.toNat]).map (·.toNat) = .ok ((op.toNat <<< 32) ||| b.toNat) :=
  (assemble_number h hw).trans (by simp)

/-- R61: a line of the byte and an index. -/
theorem assemble_index_line {m : Mnemonic} {c : Instr} {op b i : Byte} (h : m.ofOperands [b, i] = some c)
    (hw : encode c = cmdWord op 0 0 i b) :
    (assemble m [b.toNat, i.toNat]).map (·.toNat) = .ok ((op.toNat <<< 32) ||| (i.toNat <<< 8) ||| b.toNat) :=
  (assemble_number h hw).trans (by simp)

/-- An operand in range is the number of a byte. -/
theorem exists_byte_of_le {n : Nat} (h : n ≤ 255) : ∃ a : Byte, n = a.toNat :=
  ⟨BitVec.ofNat 8 n, (Nat.mod_eq_of_lt (Nat.lt_succ_of_le h)).symm⟩

/-- Settles O8: each line's operands are bytes, and its number is that of its command's encoding. -/
theorem assemblerEncodesEveryLine : Obligations.AssemblerEncodesEveryLine := by
  refine ⟨fun m operands h => ?_, cmdWord_toNat, fun b s l v i hb hs hl hv hi => ?_, rfl⟩
  · rw [assemble, mapM_asmOperand_eq_none h]
  · obtain ⟨b, rfl⟩ := exists_byte_of_le hb
    obtain ⟨s, rfl⟩ := exists_byte_of_le hs
    obtain ⟨l, rfl⟩ := exists_byte_of_le hl
    obtain ⟨v, rfl⟩ := exists_byte_of_le hv
    obtain ⟨i, rfl⟩ := exists_byte_of_le hi
    exact ⟨assemble_bare_line (op := 0x00) rfl rfl, assemble_bare_line (op := 0x01) rfl rfl,
      (assemble_number (bytes := [b, s, l]) rfl rfl).trans (by simp),
      assemble_number (op := 0x03) (bytes := [b, s, l, v]) rfl rfl,
      assemble_index_line (op := 0x10) rfl rfl, assemble_index_line (op := 0x11) rfl rfl,
      assemble_index_line (op := 0x12) rfl rfl, assemble_index_line (op := 0x13) rfl rfl,
      assemble_byte_line (op := 0x14) rfl rfl, assemble_byte_line (op := 0x15) rfl rfl,
      assemble_byte_line (op := 0x16) rfl rfl, assemble_byte_line (op := 0x17) rfl rfl,
      assemble_byte_line (op := 0x18) rfl rfl, assemble_byte_line (op := 0x19) rfl rfl,
      assemble_byte_line (op := 0x1A) rfl rfl, assemble_byte_line (op := 0x1B) rfl rfl⟩

end Sys2Proof

namespace Sys2Proof.Machine

/-! ### The response half of an edge (R54, R166) -/

/-- R54: an offered response is taken where `rsp_ready` is 1. -/
theorem takeResponse_of_offered {i : PortIn} {s : State} {r : Byte} (ho : offered s = some r) (hi : i.rspReady = true) :
    takeResponse i s = { s with inFlight := s.inFlight.tail, delivered := s.delivered ++ [r] } := by
  simp [takeResponse, ho, hi]

/-- R54: nothing is taken where nothing is offered or `rsp_ready` is 0. -/
theorem takeResponse_eq_self {i : PortIn} {s : State} (h : offered s = none ∨ i.rspReady = false) :
    takeResponse i s = s := by
  rcases h with ho | hi
  · simp [takeResponse, ho]
  · simp [takeResponse, hi]

/-- Settles O11: by whether the response half takes a response; the cycle then passes. -/
theorem edgeTakesOfferedResponse : Obligations.EdgeTakesOfferedResponse := by
  refine fun i s => ⟨fun r ho hi => ?_, fun h => ?_⟩
  · rw [finishEdge, takeResponse_of_offered ho hi]; rfl
  · rw [finishEdge, takeResponse_eq_self h]; rfl
/-! ### The handshakes at the ports (R54, R166) -/

/-- R54: a byte on offer is the result of the oldest command in flight. -/
theorem head?_results_of_offered {s : State} {r : Byte} (h : offered s = some r) :
    (s.inFlight.map (·.result)).head? = some r := by
  unfold offered at h
  cases hf : s.inFlight with
  | nil => rw [hf] at h; cases h
  | cons f fs =>
    simp only [hf] at h
    split at h
    · exact h
    · cases h

/-- R54: what the response half delivers, and the results it leaves in flight; `idle` stands where nothing is offered. -/
theorem finishEdge_delivered_and_results (i : PortIn) (s : State) (idle : Byte) :
    (finishEdge i s).delivered = s.delivered ++
      (if (offered s).isSome = true ∧ i.rspReady = true then [(offered s).getD idle] else []) ∧
    (finishEdge i s).inFlight.map (·.result) =
      (if (offered s).isSome = true ∧ i.rspReady = true then (s.inFlight.map (·.result)).tail
        else s.inFlight.map (·.result)) := by
  obtain ⟨taken, kept⟩ := edgeTakesOfferedResponse i s
  cases ho : offered s with
  | none =>
    rw [kept (.inl ho)]
    simp [Function.comp_def]
  | some r =>
    cases hi : i.rspReady with
    | false =>
      rw [kept (.inr hi)]
      simp [Function.comp_def]
    | true =>
      rw [taken r ho hi]
      simp [Function.comp_def]

/-- The inputs to come change no command's effect. -/
theorem exec_withInputs {c : Instr} {s u : State} (h : exec c s = .next u) (rest : List PortIn) :
    exec c { s with inputs := rest } = .next { u with inputs := rest } := by
  by_cases hc : c = .clear
  · subst hc; cases h; rfl
  · obtain ⟨r, hr⟩ := exists_answersFrom hc s.err
    rw [hr s fun _ => rfl] at h
    cases h
    exact hr { s with inputs := rest } fun _ => rfl

/-- R54: an edge without reset that accepts no command only adds the response half and the cycle. -/
theorem step_of_not_accepts {s : State} (hr : (nextInput s).rst = false) (ha : accepts (nextInput s) s = false) :
    step s = .next (finishEdge (nextInput s) { s with inputs := s.inputs.tail }) := by
  have hcommand : acceptCommand (nextInput s) { s with inputs := s.inputs.tail } = .next { s with inputs := s.inputs.tail } := by
    rw [acceptCommand, show accepts (nextInput s) { s with inputs := s.inputs.tail } = false from ha]; rfl
  rw [step, nextEdge, edge, hr, hcommand]
  rfl

/-- R160: an edge with `rst` = 1 resets the block. -/
theorem step_of_rst {s : State} (hr : (nextInput s).rst = true) :
    step s = .next (tick (resetEdge { s with inputs := s.inputs.tail })) := by
  rw [step, nextEdge, edge, if_pos hr]

/-- R59: an edge ends in a next state unless it accepts a reserved word. -/
theorem step_next_or_accepts_reserved (s : State) :
    (∃ t, step s = .next t) ∨
    (accepts (nextInput s) s = true ∧
      decodeWith s.params.singleBitOps (nextInput s).cmd = .reserved (opField (nextInput s).cmd)) := by
  cases hr : (nextInput s).rst with
  | true => exact .inl ⟨_, step_of_rst hr⟩
  | false =>
    cases ha : accepts (nextInput s) s with
    | false => exact .inl ⟨_, step_of_not_accepts hr ha⟩
    | true =>
      obtain hd | ⟨c, hd⟩ := decodeWith_total s.params.singleBitOps (nextInput s).cmd
      · exact .inr ⟨rfl, hd⟩
      · obtain ⟨r, d, hu, -⟩ := exec_completesOnce c { s with inputs := s.inputs.tail }
        exact .inl ⟨_, step_of_accepts ha hd hu⟩

/-- No command delivers a response. -/
theorem exec_next_delivered {c : Instr} {s u : State} (h : exec c s = .next u) : u.delivered = s.delivered := by
  obtain ⟨r, d, hr, -⟩ := exec_completesOnce c s
  rw [hr] at h
  cases h
  rfl

/-- R160: no response is on offer while `rst` is 1. -/
theorem offeredIn_of_rst {i : PortIn} (s : State) (hr : i.rst = true) : offeredIn i s = none := by
  rw [offeredIn, if_pos hr]

/-- R166: the response on offer in a cycle is counted after the command it accepts. -/
theorem offeredIn_of_acceptCommand {i : PortIn} {s u : State} (hr : i.rst = false) (h : acceptCommand i s = .next u) :
    offeredIn i s = offered u := by
  rw [offeredIn, hr, h]
  rfl

/-- R54, R166: an edge without reset, taken apart at the state `u` between its halves: what `u` offers is what the ports do, and
`u` has one more result in flight, the last, where a command is accepted. -/
theorem step_next_midEdge {s t : State} (hst : step s = .next t) (hr : (nextInput s).rst = false) :
    ∃ (u : State) (new : List Byte), t = finishEdge (nextInput s) u ∧ offeredIn (nextInput s) s = offered u ∧
      u.delivered = s.delivered ∧ u.inFlight.map (·.result) = s.inFlight.map (·.result) ++ new ∧
      new.length = (if accepts (nextInput s) s then 1 else 0) := by
  obtain ⟨hr', -⟩ | ⟨-, ha, rfl⟩ | ⟨c, u, -, ha, hd, hu, rfl⟩ := step_next_cases hst
  · rw [hr] at hr'; cases hr'
  · have hcommand : acceptCommand (nextInput s) s = .next s := by rw [acceptCommand, ha]; rfl
    have hoffer : offeredIn (nextInput s) s = offered s := offeredIn_of_acceptCommand hr hcommand
    exact ⟨_, [], rfl, hoffer, rfl, (List.append_nil _).symm, by rw [ha]; rfl⟩
  · have hcommand : acceptCommand (nextInput s) s = .next { u with inputs := s.inputs } := by
      rw [acceptCommand, if_pos ha, issue, hd]
      exact exec_withInputs hu s.inputs
    have hoffer := offeredIn_of_acceptCommand hr hcommand
    have hdelivered := exec_next_delivered hu
    obtain ⟨-, -, r, hf⟩ := exec_next_inv hu
    exact ⟨u, [r], rfl, hoffer, hdelivered, by simp [hf], by rw [ha]; rfl⟩

/-- Settles O12: from the state between the halves of the edge, whose offered response the response half takes. -/
theorem portsHandshake : Obligations.PortsHandshake := by
  refine ⟨fun _ _ => rfl, step_next_or_accepts_reserved, fun s t hst => ?_⟩
  cases hr : (nextInput s).rst with
  | true =>
    have ht : t = tick (resetEdge { s with inputs := s.inputs.tail }) := by
      rw [step_of_rst hr] at hst; cases hst; rfl
    simp [outputs, offeredIn_of_rst s hr, ht]
  | false =>
    obtain ⟨u, new, rfl, hoffer, hdelivered, hresults, hnew⟩ := step_next_midEdge hst hr
    obtain ⟨hdel, hleft⟩ := finishEdge_delivered_and_results (nextInput s) u (Config.idleRspData s.draws)
    rw [hdelivered] at hdel
    rw [hresults] at hleft
    rw [outputs, hoffer]
    refine ⟨hdel, fun _ => ⟨new, hnew, fun hvalid => ?_, hleft⟩⟩
    obtain ⟨r, ho⟩ := Option.isSome_iff_exists.1 hvalid
    rw [← hresults, head?_results_of_offered ho, ho]
    rfl

end Sys2Proof.Machine
end

section
/-! PROOFS. The Error State (R80 to R83): INSPECT and CLEAR with their ignored fields, accumulating a kind as the only way a
command sets a bit of ERR, and the union of the flags of two failures. -/

namespace Sys2Proof

/-- R57, R58: a word of five fields whose opcode has a row decodes to the command of the row, where the instance has it. -/
theorem decodeWith_cmdWord_of_row {op : Byte} {m : Mnemonic} {sb : Bool} {v l s b : Byte} (hrow : rowOf op = some m)
    (hwf : (m.build v l s b).wellFormedWith sb = true) :
    decodeWith sb (cmdWord op v l s b) = .instr (m.build v l s b) := by
  rw [decodeWith_of_row sb (by rwa [opField_cmdWord])]
  simp [hwf]

/-- R109: a command outside the single-bit group exists on every instance. -/
theorem wellFormedWith_of_not_isSingleBit {c : Instr} (h : c.isSingleBit = false) (sb : Bool) :
    c.wellFormedWith sb = true := by
  simp [Instr.wellFormedWith, h]

end Sys2Proof

namespace Sys2Proof.Machine

/-! ### INSPECT and CLEAR (R81, R82) -/

/-- Settles O14: by the row of opcode 0x00, whose command reads no field. -/
theorem inspectReturnsErr : Obligations.InspectReturnsErr := fun sb _ _ _ _ _ =>
  ⟨decodeWith_cmdWord_of_row (m := .inspect) (by decide) (wellFormedWith_of_not_isSingleBit rfl sb), rfl⟩

/-- Settles O15: by the row of opcode 0x01; the byte answered is the free value drawn. -/
theorem clearZeroesErr : Obligations.ClearZeroesErr := fun sb _ _ _ _ st =>
  ⟨decodeWith_cmdWord_of_row (m := .clear) (by decide) (wellFormedWith_of_not_isSingleBit rfl sb), Config.unspecResult st.draws,
    congrArg Host.Outcome.next (respondUnspec_clearErr st)⟩

/-! ### Accumulating a kind (R80) -/

/-- R80: setting a flag that is already set leaves ERR. -/
theorem setFlag_of_hasFlag {fb : Config.FlagBit} {k : ErrorKind} {err : Byte} (h : hasFlag fb k err = true) :
    setFlag fb k err = err := by
  refine BitVec.eq_of_getLsbD_eq fun j _ => ?_
  rw [setFlag_getLsbD]
  by_cases hj : j = (fb.bit k).val
  · rw [hj, show err.getLsbD (fb.bit k).val = true from h, Bool.true_or]
  · rw [decide_eq_false hj, Bool.or_false]

/-- R80: accumulating a kind whose flag is already set changes nothing. -/
theorem accumulate_of_hasFlag {k : ErrorKind} {s : State} (h : hasFlag s.params.flagBit k s.err = true) :
    accumulate k s = s := by
  rw [accumulate, setFlag_of_hasFlag h]

/-- R28, R80: a command turns a bit of ERR to 1 only by setting the flag of the kind it raises. -/
theorem exists_raises_of_bit_set {fb : Config.FlagBit} {c : Instr} {err : Byte} {j : Nat}
    (hset : (errAfter fb c err).getLsbD j = true) (hwas : err.getLsbD j = false) :
    ∃ k, raises c = some k ∧ errAfter fb c err = setFlag fb k err := by
  cases hk : raises c with
  | some k => exact ⟨k, rfl, errAfter_of_some hk fb err⟩
  | none =>
    by_cases hc : c = .clear
    · rw [hc, errAfter_clear] at hset
      simp at hset
    · rw [errAfter_of_none hc hk, hwas] at hset
      cases hset

/-- Settles O16: bit by bit for the accumulation, and by what a command leaves in ERR for the only-way clause. -/
theorem accumulateSetsOneFlag : Obligations.AccumulateSetsOneFlag := by
  refine ⟨fun k st => ⟨rfl, setFlag_getLsbD _ k _, accumulate_of_hasFlag⟩, fun c st => ?_⟩
  obtain ⟨r, d, hexec, -⟩ := exec_completesOnce c st
  exact ⟨_, hexec, fun _ => exists_raises_of_bit_set⟩

/-! ### Two failures (R83) -/

/-- R94: a command that raises a kind completes with the flag of the kind set, under the same parameters. -/
theorem exec_of_raises {c : Instr} {k : ErrorKind} (h : raises c = some k) (s : State) :
    ∃ t, exec c s = .next t ∧ t.params = s.params ∧ t.err = setFlag s.params.flagBit k s.err := by
  obtain ⟨r, d, hexec, -⟩ := exec_completesOnce c s
  exact ⟨_, hexec, rfl, errAfter_of_some h _ _⟩

/-- Settles O23: each failure sets its flag on the ERR it finds, INSPECT answers that ERR, and CLEAR leaves 0. -/
theorem twoFailuresUniteThenClear : Obligations.TwoFailuresUniteThenClear := by
  intro c1 c2 k1 k2 st h1 h2 _
  obtain ⟨s1, hexec1, hparams1, herr1⟩ := exec_of_raises h1 st
  obtain ⟨s2, hexec2, -, herr2⟩ := exec_of_raises h2 s1
  have hunion : s2.err = setFlag st.params.flagBit k2 (setFlag st.params.flagBit k1 st.err) := by
    rw [herr2, hparams1, herr1]
  refine ⟨s1, s2, respondUnspec (clearErr s2), hexec1, hexec2, ?_, rfl, rfl⟩
  rw [← setFlag_eq, ← setFlag_eq, ← hunion]
  rfl

end Sys2Proof.Machine
end

section
/-! PROOFS. The Bit-Field Engine: the checks as `some` and `none`, the first failing check as the only effect of a failing command
(R90, R91, R94, R110, R142), the masks (R93), and what EXTRACT and INSERT answer, bit by bit (R96 to R100). -/

namespace Sys2Proof.Machine

/-! ### The checks (R90, R91, R110) -/

/-- R90: a field is valid as the statements write it; that its length is at most 8 follows. -/
theorem checkField_eq_none_iff (s l : Byte) :
    checkField s l = none ↔ 1 ≤ l.toNat ∧ s.toNat < 8 ∧ s.toNat + l.toNat ≤ 8 := by
  rw [checkField_eq_none]
  omega

/-- R97: INSERT's checks pass on a valid field and a value that fits it. -/
theorem checkInsert_eq_none_iff (s l v : Byte) :
    checkInsert s l v = none ↔ 1 ≤ l.toNat ∧ s.toNat < 8 ∧ s.toNat + l.toNat ≤ 8 ∧ v.toNat ≤ 2 ^ l.toNat - 1 := by
  rw [checkInsert_eq_none, ← checkField_eq_none, checkField_eq_none_iff, and_assoc, and_assoc]

/-- R91: a value check raises ValueOverflow and nothing else. -/
theorem checkValue_eq_some (l v : Byte) (k : ErrorKind) :
    checkValue l v = some k ↔ k = .valueOverflow ∧ 2 ^ l.toNat - 1 < v.toNat := by
  unfold checkValue
  split_ifs with h
  · simp [h]
  · simp [Nat.not_le.1 h, eq_comm]

/-- R97: INSERT raises what its field check raises, and what its value check raises where the field check passes. -/
theorem checkInsert_eq_some (s l v : Byte) (k : ErrorKind) :
    checkInsert s l v = some k ↔ checkField s l = some k ∨ (checkField s l = none ∧ checkValue l v = some k) := by
  unfold checkInsert
  cases checkField s l <;> simp

/-- R110: an index above 7 raises IndexOutOfRange. -/
theorem checkIndex_of_ge {i : Byte} (h : 8 ≤ i.toNat) : checkIndex i = some .indexOutOfRange :=
  if_pos (Nat.not_le.2 h)

/-- R90: the field kinds. -/
theorem checkField_kind {s l : Byte} {k : ErrorKind} (h : checkField s l = some k) :
    k = .startBitInvalid ∨ k = .lengthInvalid ∨ k = .totalLengthExceeded := by
  obtain ⟨rfl, -⟩ | ⟨rfl, -⟩ | ⟨rfl, -⟩ := (checkField_eq_some s l k).1 h
  · exact .inl rfl
  · exact .inr (.inl rfl)
  · exact .inr (.inr rfl)

/-- R97: INSERT has no index to be out of range. -/
theorem checkInsert_kind {s l v : Byte} {k : ErrorKind} (h : checkInsert s l v = some k) : k ≠ .indexOutOfRange := by
  rintro rfl
  obtain hfield | ⟨-, hvalue⟩ := (checkInsert_eq_some s l v _).1 h
  · obtain hk | hk | hk := checkField_kind hfield <;> cases hk
  · cases ((checkValue_eq_some l v _).1 hvalue).1

/-! ### Validated commands (R94, R142) -/

/-- R94: the command checks its operands first, and answers `b` where a check fails. -/
def Validates (c : Instr) (b : Byte) : Prop :=
  ∃ r, ∀ st, exec c st = .next (validated (raises c) b r st)

theorem validates_extract (b s l : Byte) : Validates (.extract b s l) b := ⟨_, fun _ => rfl⟩
theorem validates_insert (b s l v : Byte) : Validates (.insert b s l v) b := ⟨_, fun _ => rfl⟩
theorem validates_getbit (b i : Byte) : Validates (.getbit b i) b := ⟨_, fun _ => rfl⟩
theorem validates_setbit (b i : Byte) : Validates (.setbit b i) b := ⟨_, fun _ => rfl⟩
theorem validates_resetbit (b i : Byte) : Validates (.resetbit b i) b := ⟨_, fun _ => rfl⟩
theorem validates_flipbit (b i : Byte) : Validates (.flipbit b i) b := ⟨_, fun _ => rfl⟩

/-- R94: the kind raised decides everything a failing command does. -/
theorem Validates.exec_of_some {c : Instr} {b : Byte} (h : Validates c b) {k : ErrorKind} (hk : raises c = some k)
    (st : State) : exec c st = .next (failed k b st) := by
  obtain ⟨r, hr⟩ := h
  rw [hr, validated_of_some hk]

/-- R95: a command that raises none answers and does nothing else. -/
theorem Validates.exec_of_none {c : Instr} {b : Byte} (h : Validates c b) (hk : raises c = none) (st : State) :
    ∃ r, exec c st = .next (answered r st) := by
  obtain ⟨r, hr⟩ := h
  exact ⟨r, by rw [hr, validated_of_none hk]⟩

/-- R142: EXTRACT and INSERT fail alike on an invalid field, INSERT whatever its value. -/
theorem exec_of_invalid_field {s l : Byte} {k : ErrorKind} (h : checkField s l = some k) (b v : Byte) (st : State) :
    exec (.extract b s l) st = .next (failed k b st) ∧ exec (.insert b s l v) st = .next (failed k b st) :=
  ⟨(validates_extract b s l).exec_of_some h st,
    (validates_insert b s l v).exec_of_some ((checkInsert_eq_some s l v k).2 (.inl h)) st⟩

/-- R91: no byte is too large for a field of length 8. -/
theorem byte_fits_length_eight {l : Byte} (hl : l.toNat = 8) (v : Byte) : v.toNat ≤ 2 ^ l.toNat - 1 := by
  rw [hl]
  exact Nat.le_pred_of_lt v.isLt

/-- Settles O27: each clause by the kind the checks raise on its operands. -/
theorem firstFailingCheckAlone : Obligations.FirstFailingCheckAlone := by
  intro b s l v i st
  refine ⟨fun hs => ?start, fun hs hl => ?length, fun hs hl hl' hsl => ?total, fun hs hl _ hsl hv => ?value,
    fun hi => ?index, fun hl hs hsl => ⟨?extract, fun hv => ?insert⟩, fun hl => byte_fits_length_eight hl v,
    fun hi => ?indexed⟩
  case start => exact exec_of_invalid_field ((checkField_eq_some s l _).2 (.inl ⟨rfl, hs⟩)) b v st
  case length => exact exec_of_invalid_field ((checkField_eq_some s l _).2 (.inr (.inl ⟨rfl, hs, hl⟩))) b v st
  case total =>
    exact exec_of_invalid_field ((checkField_eq_some s l _).2 (.inr (.inr ⟨rfl, hs, hl, hl', hsl⟩))) b v st
  case value =>
    have hfield := (checkField_eq_none_iff s l).2 ⟨hl, hs, hsl⟩
    have hvalue := (checkValue_eq_some l v _).2 ⟨rfl, hv⟩
    exact (validates_insert b s l v).exec_of_some ((checkInsert_eq_some s l v _).2 (.inr ⟨hfield, hvalue⟩)) st
  case index =>
    have hk := checkIndex_of_ge hi
    exact ⟨(validates_getbit b i).exec_of_some hk st, (validates_setbit b i).exec_of_some hk st,
      (validates_resetbit b i).exec_of_some hk st, (validates_flipbit b i).exec_of_some hk st⟩
  case extract => exact (validates_extract b s l).exec_of_none ((checkField_eq_none_iff s l).2 ⟨hl, hs, hsl⟩) st
  case insert => exact (validates_insert b s l v).exec_of_none ((checkInsert_eq_none_iff s l v).2 ⟨hl, hs, hsl, hv⟩) st
  case indexed =>
    have hk := (checkIndex_eq_none i).2 hi
    exact ⟨(validates_getbit b i).exec_of_none hk st, (validates_setbit b i).exec_of_none hk st,
      (validates_resetbit b i).exec_of_none hk st, (validates_flipbit b i).exec_of_none hk st⟩

/-! ### The masks (R93) -/

theorem lowMask_eq {l : Nat} (hl : l ≤ 8) : lowMask l = 2 ^ l - 1 :=
  Nat.eq_of_testBit_eq fun j => by rw [lowMask_testBit l j hl, Nat.testBit_two_pow_sub_one]

theorem fieldMask_lt_256 {s l : Nat} (h : s + l ≤ 8) : fieldMask s l < 256 := by
  refine lt_256_of_testBit _ fun j hj => ?_
  rw [fieldMask_testBit, decide_eq_false (show ¬ j < s + l by omega), Bool.and_false]

/-- Settles O28: by the bits of the two masks. -/
theorem masksMarkTheField : Obligations.MasksMarkTheField := fun s l _ hl hsl =>
  ⟨lowMask_eq hl, Nat.le_of_lt_succ (fieldMask_lt_256 hsl), fun j => lowMask_testBit l j hl, fieldMask_testBit s l⟩

/-- R9, R93: within a byte the complement of a field's mask needs no cut. -/
theorem compl8_fieldMask {s l : Nat} (h : s + l ≤ 8) : compl8 (fieldMask s l) = 0xFF ^^^ fieldMask s l := by
  rw [compl8, Nat.mod_eq_of_lt (fieldMask_lt_256 h)]

/-! ### The bytes EXTRACT and INSERT answer (R96, R97) -/

/-- R96, R10: what EXTRACT answers on a valid field. -/
def extractByte (b s l : Byte) : Byte := resultByte (extractValue b.toNat s.toNat l.toNat)

/-- R97, R10: what INSERT answers on a valid field and a value that fits. -/
def insertByte (b s l v : Byte) : Byte := resultByte (insertValue b.toNat s.toNat l.toNat v.toNat)

theorem exec_extract_of_valid {s l : Byte} (h : checkField s l = none) (b : Byte) (st : State) :
    exec (.extract b s l) st = .next (answered (extractByte b s l) st) :=
  congrArg Host.Outcome.next (validated_of_none h b _ st)

theorem exec_insert_of_valid {s l v : Byte} (h : checkInsert s l v = none) (b : Byte) (st : State) :
    exec (.insert b s l v) st = .next (answered (insertByte b s l v) st) :=
  congrArg Host.Outcome.next (validated_of_none h b _ st)

theorem extractValue_lt_256 (b s : Nat) {l : Nat} (hl : l ≤ 8) : extractValue b s l < 256 :=
  (extractValue_lt_two_pow b s hl).trans_le (Nat.pow_le_pow_right (by decide) hl : 2 ^ l ≤ 2 ^ 8)

theorem extractByte_toNat {l : Byte} (hl : l.toNat ≤ 8) (b s : Byte) :
    (extractByte b s l).toNat = extractValue b.toNat s.toNat l.toNat :=
  resultByte_toNat _ (extractValue_lt_256 _ _ hl)

theorem extractByte_getLsbD {l : Byte} (hl : l.toNat ≤ 8) (b s : Byte) (j : Nat) :
    (extractByte b s l).getLsbD j = (decide (j < l.toNat) && b.getLsbD (s.toNat + j)) := by
  rw [extractByte, resultByte_getLsbD _ _ (extractValue_lt_256 _ _ hl), extractValue_testBit _ _ _ _ hl, BitVec.testBit_toNat]

theorem insertByte_toNat {s l v : Byte} (hsl : s.toNat + l.toNat ≤ 8) (hv : v.toNat ≤ 2 ^ l.toNat - 1) (b : Byte) :
    (insertByte b s l v).toNat = insertValue b.toNat s.toNat l.toNat v.toNat :=
  resultByte_toNat _ (insertValue_lt_256 b.isLt hsl hv)

theorem insertByte_getLsbD {s l v : Byte} (hsl : s.toNat + l.toNat ≤ 8) (hv : v.toNat ≤ 2 ^ l.toNat - 1) (b : Byte)
    (j : Nat) : (insertByte b s l v).getLsbD j =
      if s.toNat ≤ j ∧ j < s.toNat + l.toNat then v.getLsbD (j - s.toNat) else b.getLsbD j := by
  rw [insertByte, resultByte_getLsbD _ _ (insertValue_lt_256 b.isLt hsl hv), insertValue_testBit _ _ _ _ _ b.isLt hv,
    BitVec.testBit_toNat, BitVec.testBit_toNat]

/-- R99: bit by bit outside the field. -/
theorem insertByte_getLsbD_outside {s l v : Byte} (hsl : s.toNat + l.toNat ≤ 8) (hv : v.toNat ≤ 2 ^ l.toNat - 1) (b : Byte)
    {j : Nat} (hj : j < s.toNat ∨ s.toNat + l.toNat ≤ j) : (insertByte b s l v).getLsbD j = b.getLsbD j := by
  rw [insertByte_getLsbD hsl hv, if_neg (by omega)]

/-- R98: the field reads back as the value, which has no bit beyond it. -/
theorem extractByte_insertByte {s l v : Byte} (hsl : s.toNat + l.toNat ≤ 8) (hv : v.toNat ≤ 2 ^ l.toNat - 1) (b : Byte) :
    extractByte (insertByte b s l v) s l = v := by
  refine BitVec.eq_of_getLsbD_eq fun j _ => ?_
  rw [extractByte_getLsbD (by omega)]
  by_cases hj : j < l.toNat
  · rw [decide_eq_true hj, Bool.true_and, insertByte_getLsbD hsl hv, if_pos (by omega), Nat.add_sub_cancel_left]
  · rw [decide_eq_false hj, Bool.false_and, ← BitVec.testBit_toNat, testBit_of_le _ _ _ hv (Nat.not_lt.1 hj)]

/-- R100: writing the same value again changes no bit, inside the field or outside. -/
theorem insertByte_insertByte {s l v : Byte} (hsl : s.toNat + l.toNat ≤ 8) (hv : v.toNat ≤ 2 ^ l.toNat - 1) (b : Byte) :
    insertByte (insertByte b s l v) s l v = insertByte b s l v := by
  refine BitVec.eq_of_getLsbD_eq fun j _ => ?_
  rw [insertByte_getLsbD hsl hv, insertByte_getLsbD hsl hv]
  split_ifs <;> rfl

/-! ### EXTRACT and INSERT (R96 to R100) -/

/-- Settles O30: by the bits of the byte answered where the field check passes, and the kind it raises where it fails. -/
theorem extractReadsField : Obligations.ExtractReadsField := by
  intro sb v l s b st
  refine ⟨?decodes, fun hl hs hsl => ?valid, fun hinvalid => ?invalid⟩
  case decodes =>
    exact decodeWith_cmdWord_of_row (m := .extract) (by decide) (wellFormedWith_of_not_isSingleBit rfl sb)
  case valid =>
    have hl8 : l.toNat ≤ 8 := by omega
    have hvalue := extractByte_toNat hl8 b s
    exact ⟨_, exec_extract_of_valid ((checkField_eq_none_iff s l).2 ⟨hl, hs, hsl⟩) b st, hvalue,
      hvalue.trans_lt (extractValue_lt_two_pow _ _ hl8), extractByte_getLsbD hl8 b s⟩
  case invalid =>
    obtain ⟨k, hk⟩ := Option.ne_none_iff_exists'.1 (mt (checkField_eq_none_iff s l).1 hinvalid)
    exact ⟨k, checkField_kind hk, (validates_extract b s l).exec_of_some hk st⟩

/-- Settles O31: by the bits of the byte answered where both checks pass, and the kind they raise where one fails. -/
theorem insertWritesField : Obligations.InsertWritesField := by
  intro sb v l s b st
  refine ⟨?decodes, fun hl hs hsl hv => ?valid, fun hinvalid => ?invalid⟩
  case decodes =>
    exact decodeWith_cmdWord_of_row (m := .insert) (by decide) (wellFormedWith_of_not_isSingleBit rfl sb)
  case valid =>
    have hvalue : (insertByte b s l v).toNat =
        (b.toNat &&& (0xFF ^^^ fieldMask s.toNat l.toNat)) ||| (v.toNat <<< s.toNat) := by
      rw [insertByte_toNat hsl hv, insertValue, compl8_fieldMask hsl]
    exact ⟨_, exec_insert_of_valid ((checkInsert_eq_none_iff s l v).2 ⟨hl, hs, hsl, hv⟩) b st, hvalue,
      insertByte_getLsbD hsl hv b⟩
  case invalid =>
    obtain ⟨k, hk⟩ := Option.ne_none_iff_exists'.1 (mt (checkInsert_eq_none_iff s l v).1 hinvalid)
    exact ⟨k, checkInsert_kind hk, (validates_insert b s l v).exec_of_some hk st⟩

/-- Settles O32: both commands pass their checks, and the field of the byte INSERT answers is the value. -/
theorem extractOfInsertIsValue : Obligations.ExtractOfInsertIsValue := by
  intro b s l v st hl hs hsl hv
  refine ⟨_, exec_insert_of_valid ((checkInsert_eq_none_iff s l v).2 ⟨hl, hs, hsl, hv⟩) b st, ?_⟩
  rw [exec_extract_of_valid ((checkField_eq_none_iff s l).2 ⟨hl, hs, hsl⟩), extractByte_insertByte hsl hv]

/-- Settles O33: a value that fits leaves the bits outside the field, and one that does not fit leaves the whole byte. -/
theorem insertKeepsBitsOutsideField : Obligations.InsertKeepsBitsOutsideField := by
  intro b s l v st hl hs hsl
  cases hcheck : checkInsert s l v with
  | none =>
    obtain ⟨-, -, -, hv⟩ := (checkInsert_eq_none_iff s l v).1 hcheck
    exact ⟨_, _, exec_insert_of_valid hcheck b st, rfl, fun _ => insertByte_getLsbD_outside hsl hv b⟩
  | some k => exact ⟨b, _, (validates_insert b s l v).exec_of_some hcheck st, rfl, fun _ _ => rfl⟩

/-- R94: a second failure of the same kind leaves ERR as the first did. -/
theorem failed_failed_err (k : ErrorKind) (b b' : Byte) (st : State) :
    (failed k b' (failed k b st)).err = (failed k b st).err := by
  rw [failed_err, failed_params, failed_err, BitVec.or_assoc, BitVec.or_self]

/-- Settles O34: the checks do not read the byte, so both commands succeed on the same field and value, or both fail alike. -/
theorem insertIdempotent : Obligations.InsertIdempotent := by
  intro b s l v st
  cases hcheck : checkInsert s l v with
  | none =>
    obtain ⟨-, -, hsl, hv⟩ := (checkInsert_eq_none_iff s l v).1 hcheck
    have hagain := exec_insert_of_valid hcheck (insertByte b s l v) (answered (insertByte b s l v) st)
    rw [insertByte_insertByte hsl hv] at hagain
    exact ⟨_, _, _, exec_insert_of_valid hcheck b st, rfl, hagain, rfl, rfl⟩
  | some k =>
    have hfails := (validates_insert b s l v).exec_of_some hcheck
    exact ⟨b, _, _, hfails st, rfl, hfails _, rfl, failed_failed_err k b b st⟩

end Sys2Proof.Machine
end

section
/-! PROOFS. The single-bit commands: the instance without the group, where the flag of IndexOutOfRange stays 0 (R109), what each
indexed command answers up to index 7, bit by bit and as a one-bit field (R111 to R113, R124), and the fixed-position commands as
the indexed ones at 0 and 7 (R115 to R123). -/

namespace Sys2Proof

/-- R57, R109: on an instance with the single-bit group a word of five fields decodes to the command of its row. -/
theorem decodeWith_true_cmdWord {op : Byte} {m : Mnemonic} (hrow : rowOf op = some m) (v l s b : Byte) :
    decodeWith true (cmdWord op v l s b) = .instr (m.build v l s b) :=
  decodeWith_cmdWord_of_row hrow rfl

/-- R57, R58: the same of a word with the opcode of an encoding, whatever its other fields. -/
theorem decodeWith_true_of_encoded_opcode {c : Instr} {op : Byte} {m : Mnemonic} (hop : opField (encode c) = op)
    (hrow : rowOf op = some m) (b v l s : Byte) :
    decodeWith true (cmdWord (opField (encode c)) v l s b) = .instr (m.build v l s b) := by
  rw [hop, decodeWith_true_cmdWord hrow]

/-- R60, R109: the decoder answers only commands that exist on the instance. -/
theorem wellFormedWith_of_decodeWith {sb : Bool} {w : CmdWord} {c : Instr} (h : decodeWith sb w = .instr c) :
    c.wellFormedWith sb = true := by
  obtain ⟨m, hrow, hbuild⟩ := row_of_decodeWith h
  rw [decodeWith_of_row sb hrow, hbuild] at h
  split at h
  · assumption
  · cases h

end Sys2Proof

namespace Sys2Proof.Machine

/-! ### The instance without the single-bit group (R109) -/

/-- R110, R142: only a single-bit command raises IndexOutOfRange. -/
theorem isSingleBit_of_raises_indexOutOfRange {c : Instr} (h : raises c = some .indexOutOfRange) : c.isSingleBit = true := by
  cases c with
  | inspect => cases h
  | clear => cases h
  | extract b s l => obtain hk | hk | hk := checkField_kind h <;> cases hk
  | insert b s l v => exact absurd rfl (checkInsert_kind h)
  | _ => rfl

/-- R109: no command that an instance without the group decodes raises IndexOutOfRange. -/
theorem raises_ne_indexOutOfRange_of_decodeWith_false {w : CmdWord} {c : Instr} (h : decodeWith false w = .instr c) :
    raises c ≠ some .indexOutOfRange := by
  intro hk
  have hexists := wellFormedWith_of_decodeWith h
  rw [Instr.wellFormedWith, isSingleBit_of_raises_indexOutOfRange hk] at hexists
  cases hexists

/-- R26, R28: a command sets no flag but that of the kind it raises. -/
theorem hasFlag_errAfter_eq_false {fb : Config.FlagBit} {c : Instr} {k : ErrorKind} {err : Byte} (hk : raises c ≠ some k)
    (h : hasFlag fb k err = false) : hasFlag fb k (errAfter fb c err) = false := by
  by_contra hset
  rw [Bool.not_eq_false] at hset
  obtain ⟨k', hraised, herr⟩ := exists_raises_of_bit_set hset h
  rw [herr, hasFlag, setFlag_getLsbD, show err.getLsbD (fb.bit k).val = false from h, Bool.false_or,
    decide_eq_true_eq] at hset
  rw [bit_injective fb (Fin.ext hset)] at hk
  exact hk hraised

/-- R109: on an instance without the group no edge sets the flag of IndexOutOfRange. -/
theorem step_keeps_indexOutOfRange_zero {s t : State} (hst : step s = .next t) (hsb : s.params.singleBitOps = false)
    (h : hasFlag s.params.flagBit .indexOutOfRange s.err = false) :
    hasFlag s.params.flagBit .indexOutOfRange t.err = false := by
  obtain ⟨-, he⟩ | ⟨-, -, he⟩ | ⟨-, c, hc, he⟩ := step_next_err hst
  · rw [he]
    exact BitVec.getLsbD_zero
  · rw [he, h]
  · obtain ⟨-, hd⟩ := acceptedCommand_eq_some.1 hc
    rw [hsb] at hd
    rw [he]
    exact hasFlag_errAfter_eq_false (raises_ne_indexOutOfRange_of_decodeWith_false hd) h

/-- R109: no run of edges does, by induction on its length; the parameters stay along it. -/
theorem runSteps_keeps_indexOutOfRange_zero {n : Nat} {s t : State} (hrun : runSteps n s = .next t)
    (hsb : s.params.singleBitOps = false) (h : hasFlag s.params.flagBit .indexOutOfRange s.err = false) :
    hasFlag s.params.flagBit .indexOutOfRange t.err = false := by
  induction n generalizing s with
  | zero => cases hrun; exact h
  | succ n ih =>
    obtain ⟨u, hst, hrest⟩ := runSteps_succ_eq_next.1 hrun
    have hu := step_keeps_indexOutOfRange_zero hst hsb h
    rw [← step_next_params hst] at hsb hu ⊢
    exact ih hrest hsb hu

/-- Settles O45: by induction on the number of edges, none of which accepts a command that raises the kind. -/
theorem noIndexErrorWithoutSingleBitGroup : Obligations.NoIndexErrorWithoutSingleBitGroup :=
  ⟨fun w hlo hhi => (decodeWith_eq_reserved_iff false w).2 (.inr ⟨hlo, hhi, rfl⟩),
    fun _ _ _ hsb hrun => runSteps_keeps_indexOutOfRange_zero hrun hsb, fun _ => BitVec.getLsbD_zero⟩

/-! ### One-bit fields (R91, R97, R124) -/

section OneBitField

variable {i : Byte} (hi : i.toNat ≤ 7)
include hi

/-- R90: the one-bit field at an index up to 7 is valid. -/
theorem checkField_one_bit : checkField i 1 = none :=
  (checkField_eq_none_iff i 1).2 ⟨le_rfl, Nat.lt_succ_of_le hi, Nat.succ_le_succ hi⟩

/-- R97: INSERT's checks pass on it for 0 and 1. -/
theorem checkInsert_one_bit {v : Byte} (hv : v.toNat ≤ 1) : checkInsert i 1 v = none :=
  (checkInsert_eq_none_iff i 1 v).2 ⟨le_rfl, Nat.lt_succ_of_le hi, Nat.succ_le_succ hi, hv⟩

/-- R97: INSERT in a one-bit field writes that bit. -/
theorem insertByte_one_bit_getLsbD {v : Byte} (hv : v.toNat ≤ 1) (b : Byte) (j : Nat) :
    (insertByte b i 1 v).getLsbD j = if j = i.toNat then v.getLsbD 0 else b.getLsbD j := by
  have hone : (1 : Byte).toNat = 1 := rfl
  rw [insertByte_getLsbD (l := 1) (Nat.succ_le_succ hi) hv, hone]
  by_cases hj : j = i.toNat
  · rw [if_pos (by omega), if_pos hj, hj, Nat.sub_self]
  · rw [if_neg (by omega), if_neg hj]

/-- R97: a second write to a one-bit field leaves nothing of the first. -/
theorem insertByte_one_bit_overwrites {v w : Byte} (hv : v.toNat ≤ 1) (hw : w.toNat ≤ 1) (b : Byte) :
    insertByte (insertByte b i 1 v) i 1 w = insertByte b i 1 w := by
  refine BitVec.eq_of_getLsbD_eq fun j _ => ?_
  rw [insertByte_one_bit_getLsbD hi hw, insertByte_one_bit_getLsbD hi hw, insertByte_one_bit_getLsbD hi hv]
  split_ifs <;> rfl

end OneBitField

/-! ### The bytes the indexed commands answer (R111 to R114) -/

/-- R111, R10: what GETBIT answers on an index up to 7. -/
def getBitByte (b i : Byte) : Byte := resultByte (getBitValue b.toNat i.toNat)

/-- R112, R10: what SETBIT answers on an index up to 7. -/
def setBitByte (b i : Byte) : Byte := resultByte (setBitValue b.toNat i.toNat)

/-- R113, R10: what RESETBIT answers on an index up to 7. -/
def resetBitByte (b i : Byte) : Byte := resultByte (resetBitValue b.toNat i.toNat)

/-- R114, R10: what FLIPBIT answers on an index up to 7. -/
def flipBitByte (b i : Byte) : Byte := resultByte (flipBitValue b.toNat i.toNat)

theorem getBitByte_toNat (b i : Byte) : (getBitByte b i).toNat = getBitValue b.toNat i.toNat :=
  resultByte_toNat _ (Nat.lt_of_le_of_lt (getBitValue_le_one _ _) (by decide))

theorem getBitByte_eq (b i : Byte) : getBitByte b i = if b.getLsbD i.toNat then 1 else 0 := by
  rw [getBitByte, getBitValue_eq, BitVec.testBit_toNat]
  cases b.getLsbD i.toNat <;> rfl

/-- R111: the byte GETBIT answers is the one-bit field, since `low_mask(1)` computes to 1. -/
theorem getBitByte_eq_extractByte (b i : Byte) : getBitByte b i = extractByte b i 1 := rfl

theorem resetBitByte_getLsbD (b i : Byte) (j : Nat) :
    (resetBitByte b i).getLsbD j = (!decide (j = i.toNat) && b.getLsbD j) := by
  rw [resetBitByte, resultByte_getLsbD _ _ (resetBitValue_lt_256 b.isLt _), resetBitValue_testBit _ _ _ b.isLt,
    BitVec.testBit_toNat]

section IndexedByte

variable {i : Byte} (hi : i.toNat ≤ 7)
include hi

theorem setBitByte_toNat (b : Byte) : (setBitByte b i).toNat = b.toNat ||| (1 <<< i.toNat) :=
  resultByte_toNat _ (setBitValue_lt_256 b.isLt hi)

theorem setBitByte_getLsbD (b : Byte) (j : Nat) :
    (setBitByte b i).getLsbD j = (decide (j = i.toNat) || b.getLsbD j) := by
  rw [setBitByte, resultByte_getLsbD _ _ (setBitValue_lt_256 b.isLt hi), setBitValue_testBit, BitVec.testBit_toNat]

theorem resetBitByte_toNat (b : Byte) : (resetBitByte b i).toNat = b.toNat &&& (0xFF ^^^ (1 <<< i.toNat)) := by
  have hmask : compl8 (1 <<< i.toNat) = 0xFF ^^^ (1 <<< i.toNat) := compl8_fieldMask (l := 1) (Nat.succ_le_succ hi)
  rw [resetBitByte, resultByte_toNat _ (resetBitValue_lt_256 b.isLt _), resetBitValue, hmask]

theorem flipBitByte_toNat (b : Byte) : (flipBitByte b i).toNat = b.toNat ^^^ (1 <<< i.toNat) :=
  resultByte_toNat _ (flipBitValue_lt_256 b.isLt hi)

/-- R124: setting a bit is writing 1 in its one-bit field. -/
theorem setBitByte_eq_insertByte (b : Byte) : setBitByte b i = insertByte b i 1 1 := by
  refine BitVec.eq_of_getLsbD_eq fun j _ => ?_
  rw [setBitByte_getLsbD hi, insertByte_one_bit_getLsbD hi le_rfl]
  by_cases hj : j = i.toNat
  · rw [if_pos hj, decide_eq_true hj]; rfl
  · rw [if_neg hj, decide_eq_false hj, Bool.false_or]

/-- R124: clearing a bit is writing 0 in its one-bit field. -/
theorem resetBitByte_eq_insertByte (b : Byte) : resetBitByte b i = insertByte b i 1 0 := by
  refine BitVec.eq_of_getLsbD_eq fun j _ => ?_
  rw [resetBitByte_getLsbD, insertByte_one_bit_getLsbD (v := 0) hi (Nat.zero_le 1)]
  by_cases hj : j = i.toNat
  · rw [if_pos hj, decide_eq_true hj]; rfl
  · rw [if_neg hj, decide_eq_false hj]; rfl

/-! ### The indexed commands on an index up to 7 (R95) -/

theorem exec_getbit_of_valid (b : Byte) (st : State) : exec (.getbit b i) st = .next (answered (getBitByte b i) st) :=
  congrArg Host.Outcome.next (validated_of_none ((checkIndex_eq_none i).2 hi) b _ st)

theorem exec_setbit_of_valid (b : Byte) (st : State) : exec (.setbit b i) st = .next (answered (setBitByte b i) st) :=
  congrArg Host.Outcome.next (validated_of_none ((checkIndex_eq_none i).2 hi) b _ st)

theorem exec_resetbit_of_valid (b : Byte) (st : State) :
    exec (.resetbit b i) st = .next (answered (resetBitByte b i) st) :=
  congrArg Host.Outcome.next (validated_of_none ((checkIndex_eq_none i).2 hi) b _ st)

theorem exec_flipbit_of_valid (b : Byte) (st : State) : exec (.flipbit b i) st = .next (answered (flipBitByte b i) st) :=
  congrArg Host.Outcome.next (validated_of_none ((checkIndex_eq_none i).2 hi) b _ st)

/-- R111, R124: GETBIT is EXTRACT of the one-bit field. -/
theorem exec_getbit_eq_extract (b : Byte) (st : State) : exec (.getbit b i) st = exec (.extract b i 1) st := by
  rw [exec_getbit_of_valid hi, exec_extract_of_valid (checkField_one_bit hi), getBitByte_eq_extractByte]

/-- R112, R124: SETBIT is INSERT of 1 in it. -/
theorem exec_setbit_eq_insert (b : Byte) (st : State) : exec (.setbit b i) st = exec (.insert b i 1 1) st := by
  rw [exec_setbit_of_valid hi, exec_insert_of_valid (checkInsert_one_bit hi le_rfl), setBitByte_eq_insertByte hi]

/-- R113, R124: RESETBIT is INSERT of 0 in it. -/
theorem exec_resetbit_eq_insert (b : Byte) (st : State) : exec (.resetbit b i) st = exec (.insert b i 1 0) st := by
  rw [exec_resetbit_of_valid hi, exec_insert_of_valid (checkInsert_one_bit (v := 0) hi (Nat.zero_le 1)),
    resetBitByte_eq_insertByte hi]

end IndexedByte

/-! ### GETBIT, SETBIT and RESETBIT (R111 to R113, R124) -/

/-- Settles O35: by the one bit GETBIT answers, which is what EXTRACT's mask of length 1 leaves. -/
theorem getbitReadsBit : Obligations.GetbitReadsBit := fun v l i b st =>
  ⟨decodeWith_true_cmdWord (m := .getbit) (by decide) v l i b,
    fun hi => ⟨by rw [exec_getbit_of_valid hi, getBitByte_eq], exec_getbit_eq_extract hi b st⟩,
    fun hi => (validates_getbit b i).exec_of_some (checkIndex_of_ge hi) st⟩

/-- Settles O36: by the bits of the byte SETBIT answers, which are those of INSERT of 1. -/
theorem setbitSetsBit : Obligations.SetbitSetsBit := fun v l i b st =>
  ⟨decodeWith_true_cmdWord (m := .setbit) (by decide) v l i b,
    fun hi => ⟨_, exec_setbit_of_valid hi b st, setBitByte_toNat hi b, setBitByte_getLsbD hi b,
      exec_setbit_eq_insert hi b st⟩,
    fun hi => (validates_setbit b i).exec_of_some (checkIndex_of_ge hi) st⟩

/-- Settles O37: by the bits of the byte RESETBIT answers, which are those of INSERT of 0. -/
theorem resetbitClearsBit : Obligations.ResetbitClearsBit := fun v l i b st =>
  ⟨decodeWith_true_cmdWord (m := .resetbit) (by decide) v l i b,
    fun hi => ⟨_, exec_resetbit_of_valid hi b st, resetBitByte_toNat hi b, resetBitByte_getLsbD b i,
      exec_resetbit_eq_insert hi b st⟩,
    fun hi => (validates_resetbit b i).exec_of_some (checkIndex_of_ge hi) st⟩

/-- Settles O44: a set and a reset are writes to one field, the later of which alone stays; above 7 both sides fail, each at its
own check. -/
theorem singleBitIsOneBitField : Obligations.SingleBitIsOneBitField := by
  refine fun b i st => ⟨fun hi => ?valid, fun hi => ?invalid⟩
  case valid =>
    have hone : (1 : Byte).toNat ≤ 1 := le_rfl
    have hzero : (0 : Byte).toNat ≤ 1 := Nat.zero_le 1
    refine ⟨exec_getbit_eq_extract hi b st, exec_setbit_eq_insert hi b st, exec_resetbit_eq_insert hi b st, _, _,
      exec_setbit_of_valid hi b st, exec_resetbit_of_valid hi b st, ?_, ?_⟩
    · rw [exec_insert_of_valid (checkInsert_one_bit hi hzero), setBitByte_eq_insertByte hi,
        resetBitByte_eq_insertByte hi, insertByte_one_bit_overwrites hi hone hzero]
    · rw [exec_insert_of_valid (checkInsert_one_bit hi hone), setBitByte_eq_insertByte hi,
        resetBitByte_eq_insertByte hi, insertByte_one_bit_overwrites hi hzero hone]
  case invalid =>
    have hindex := checkIndex_of_ge hi
    have hfield : checkField i 1 = some .startBitInvalid := (checkField_eq_some i 1 _).2 (.inl ⟨rfl, hi⟩)
    exact ⟨(validates_getbit b i).exec_of_some hindex st, (validates_setbit b i).exec_of_some hindex st,
      (validates_resetbit b i).exec_of_some hindex st, (exec_of_invalid_field hfield b 0 st).1,
      fun v => (exec_of_invalid_field hfield b v st).2⟩

/-! ### The fixed-position commands (R115 to R123) -/

/-- R115: two commands that only answer are equal where their answers are one number. In the eight pairs below the number of the
indexed command's byte, as its lemma states it, computes at position 0 or 7 to that of the fixed-position command's. -/
theorem exec_fixed_eq_indexed {fixed indexed : Instr} {r r' : Byte} {st : State}
    (hfixed : exec fixed st = .next (answered r st)) (hindexed : exec indexed st = .next (answered r' st))
    (hr : r'.toNat = r.toNat) : exec fixed st = exec indexed st := by
  rw [hfixed, hindexed, BitVec.eq_of_toNat_eq hr]

theorem exec_getlsb_eq_getbit (b : Byte) (st : State) : exec (.getlsb b) st = exec (.getbit b 0) st :=
  exec_fixed_eq_indexed rfl (exec_getbit_of_valid (by decide) b st) (getBitByte_toNat b 0)

theorem exec_getmsb_eq_getbit (b : Byte) (st : State) : exec (.getmsb b) st = exec (.getbit b 7) st :=
  exec_fixed_eq_indexed rfl (exec_getbit_of_valid (by decide) b st) (getBitByte_toNat b 7)

theorem exec_setlsb_eq_setbit (b : Byte) (st : State) : exec (.setlsb b) st = exec (.setbit b 0) st :=
  exec_fixed_eq_indexed rfl (exec_setbit_of_valid (by decide) b st) (setBitByte_toNat (by decide) b)

theorem exec_setmsb_eq_setbit (b : Byte) (st : State) : exec (.setmsb b) st = exec (.setbit b 7) st :=
  exec_fixed_eq_indexed rfl (exec_setbit_of_valid (by decide) b st) (setBitByte_toNat (by decide) b)

theorem exec_resetlsb_eq_resetbit (b : Byte) (st : State) : exec (.resetlsb b) st = exec (.resetbit b 0) st :=
  exec_fixed_eq_indexed rfl (exec_resetbit_of_valid (by decide) b st) (resetBitByte_toNat (by decide) b)

theorem exec_resetmsb_eq_resetbit (b : Byte) (st : State) : exec (.resetmsb b) st = exec (.resetbit b 7) st :=
  exec_fixed_eq_indexed rfl (exec_resetbit_of_valid (by decide) b st) (resetBitByte_toNat (by decide) b)

theorem exec_fliplsb_eq_flipbit (b : Byte) (st : State) : exec (.fliplsb b) st = exec (.flipbit b 0) st :=
  exec_fixed_eq_indexed rfl (exec_flipbit_of_valid (by decide) b st) (flipBitByte_toNat (by decide) b)

theorem exec_flipmsb_eq_flipbit (b : Byte) (st : State) : exec (.flipmsb b) st = exec (.flipbit b 7) st :=
  exec_fixed_eq_indexed rfl (exec_flipbit_of_valid (by decide) b st) (flipBitByte_toNat (by decide) b)

/-- Settles O39: by GETBIT at 0 and at 7. -/
theorem getFixedBit : Obligations.GetFixedBit := fun v l s b st =>
  ⟨decodeWith_true_cmdWord (m := .getlsb) (by decide) v l s b, decodeWith_true_cmdWord (m := .getmsb) (by decide) v l s b,
    by rw [exec_getlsb_eq_getbit, exec_getbit_of_valid (by decide), getBitByte_eq]; rfl,
    by rw [exec_getmsb_eq_getbit, exec_getbit_of_valid (by decide), getBitByte_eq]; rfl,
    exec_getlsb_eq_getbit b st, exec_getmsb_eq_getbit b st⟩

/-- Settles O40: by SETBIT at 0 and at 7. -/
theorem setFixedBit : Obligations.SetFixedBit := fun v l s b st =>
  ⟨decodeWith_true_cmdWord (m := .setlsb) (by decide) v l s b, decodeWith_true_cmdWord (m := .setmsb) (by decide) v l s b,
    ⟨_, (exec_setlsb_eq_setbit b st).trans (exec_setbit_of_valid (by decide) b st), setBitByte_toNat (by decide) b,
      setBitByte_getLsbD (by decide) b⟩,
    ⟨_, (exec_setmsb_eq_setbit b st).trans (exec_setbit_of_valid (by decide) b st), setBitByte_toNat (by decide) b,
      setBitByte_getLsbD (by decide) b⟩,
    exec_setlsb_eq_setbit b st, exec_setmsb_eq_setbit b st⟩

/-- Settles O41: by RESETBIT at 0 and at 7. -/
theorem resetFixedBit : Obligations.ResetFixedBit := fun v l s b st =>
  ⟨decodeWith_true_cmdWord (m := .resetlsb) (by decide) v l s b,
    decodeWith_true_cmdWord (m := .resetmsb) (by decide) v l s b,
    ⟨_, (exec_resetlsb_eq_resetbit b st).trans (exec_resetbit_of_valid (by decide) b st),
      resetBitByte_toNat (by decide) b, resetBitByte_getLsbD b _⟩,
    ⟨_, (exec_resetmsb_eq_resetbit b st).trans (exec_resetbit_of_valid (by decide) b st),
      resetBitByte_toNat (by decide) b, resetBitByte_getLsbD b _⟩,
    exec_resetlsb_eq_resetbit b st, exec_resetmsb_eq_resetbit b st⟩

/-- Settles O43: row by row, by the command's own row of the opcode map and the indexed command it equals. -/
theorem fixedPositionIsIndexed : Obligations.FixedPositionIsIndexed := by
  intro b st fixed indexed hpair
  simp only [List.mem_cons, Prod.mk.injEq, List.not_mem_nil, or_false] at hpair
  obtain ⟨rfl, rfl⟩ | ⟨rfl, rfl⟩ | ⟨rfl, rfl⟩ | ⟨rfl, rfl⟩ | ⟨rfl, rfl⟩ | ⟨rfl, rfl⟩ | ⟨rfl, rfl⟩ | ⟨rfl, rfl⟩ := hpair
  · exact ⟨rfl, ⟨_, rfl⟩, exec_getlsb_eq_getbit b st,
      decodeWith_true_of_encoded_opcode (c := .getlsb b) (m := .getlsb) (opField_cmdWord 0x14 ..) (by decide) b⟩
  · exact ⟨rfl, ⟨_, rfl⟩, exec_getmsb_eq_getbit b st,
      decodeWith_true_of_encoded_opcode (c := .getmsb b) (m := .getmsb) (opField_cmdWord 0x15 ..) (by decide) b⟩
  · exact ⟨rfl, ⟨_, rfl⟩, exec_setlsb_eq_setbit b st,
      decodeWith_true_of_encoded_opcode (c := .setlsb b) (m := .setlsb) (opField_cmdWord 0x16 ..) (by decide) b⟩
  · exact ⟨rfl, ⟨_, rfl⟩, exec_setmsb_eq_setbit b st,
      decodeWith_true_of_encoded_opcode (c := .setmsb b) (m := .setmsb) (opField_cmdWord 0x17 ..) (by decide) b⟩
  · exact ⟨rfl, ⟨_, rfl⟩, exec_resetlsb_eq_resetbit b st,
      decodeWith_true_of_encoded_opcode (c := .resetlsb b) (m := .resetlsb) (opField_cmdWord 0x18 ..) (by decide) b⟩
  · exact ⟨rfl, ⟨_, rfl⟩, exec_resetmsb_eq_resetbit b st,
      decodeWith_true_of_encoded_opcode (c := .resetmsb b) (m := .resetmsb) (opField_cmdWord 0x19 ..) (by decide) b⟩
  · exact ⟨rfl, ⟨_, rfl⟩, exec_fliplsb_eq_flipbit b st,
      decodeWith_true_of_encoded_opcode (c := .fliplsb b) (m := .fliplsb) (opField_cmdWord 0x1A ..) (by decide) b⟩
  · exact ⟨rfl, ⟨_, rfl⟩, exec_flipmsb_eq_flipbit b st,
      decodeWith_true_of_encoded_opcode (c := .flipmsb b) (m := .flipmsb) (opField_cmdWord 0x1B ..) (by decide) b⟩

end Sys2Proof.Machine
end

section
/-! PROOFS. The union of the flags: what a list of commands carried out one after another leaves in ERR (R143). -/

namespace Sys2Proof.Machine

/-! ### What one command, and a list of commands, adds to ERR (R28, R143) -/

/-- R80, R141: the flag of the kind that the command raises is bit `j` of ERR. -/
def raisesFlagAt (fb : Config.FlagBit) (j : Nat) (c : Instr) : Bool :=
  (raises c).any fun k => decide ((fb.bit k).val = j)

/-- R28: a command other than CLEAR adds to ERR the flag of the kind it raises, and no other bit. -/
theorem errAfter_getLsbD (fb : Config.FlagBit) {c : Instr} (hc : c ≠ .clear) (err : Byte) (j : Nat) :
    (errAfter fb c err).getLsbD j = (err.getLsbD j || raisesFlagAt fb j c) := by
  cases hk : raises c with
  | none => simp [errAfter_of_none hc hk, raisesFlagAt, hk]
  | some k => simp [errAfter_of_some hk, setFlag_getLsbD, raisesFlagAt, hk, eq_comm]

theorem runCommands_cons {c : Instr} {s u : State} (h : exec c s = .next u) (cs : List Instr) :
    runCommands (c :: cs) s = runCommands cs u := by
  rw [runCommands, h]

/-- R143: commands other than CLEAR all complete, and ERR has then the bits it had and the flags of the kinds raised. -/
theorem runCommands_err {cs : List Instr} (hc : Instr.clear ∉ cs) (s : State) :
    ∃ t, runCommands cs s = .next t ∧
      ∀ j, t.err.getLsbD j = (s.err.getLsbD j || cs.any (raisesFlagAt s.params.flagBit j)) := by
  induction cs generalizing s with
  | nil => exact ⟨s, rfl, fun j => (Bool.or_false _).symm⟩
  | cons c cs ih =>
    rw [List.mem_cons, not_or] at hc
    obtain ⟨hFirst, hLater⟩ := hc
    obtain ⟨r, d, hexec, -⟩ := exec_completesOnce c s
    obtain ⟨t, hrun, hbits⟩ := ih hLater _
    refine ⟨t, (runCommands_cons hexec cs).trans hrun, fun j => ?_⟩
    rw [hbits j, errAfter_getLsbD _ (Ne.symm hFirst), List.any_cons, Bool.or_assoc]

/-- Settles O24: each list leaves the union of its flags, and a permuted list raises the same kinds. -/
theorem flagUnionIgnoresOrder : Obligations.FlagUnionIgnoresOrder := by
  intro cs ds st hperm hc
  obtain ⟨t, ht, htBits⟩ := runCommands_err hc st
  obtain ⟨u, hu, huBits⟩ := runCommands_err (fun h => hc (hperm.mem_iff.2 h)) st
  have hSameFlags (j : Nat) : cs.any (raisesFlagAt st.params.flagBit j) = ds.any (raisesFlagAt st.params.flagBit j) :=
    hperm.any_eq
  refine ⟨t, u, ht, hu, BitVec.eq_of_getLsbD_eq fun j _ => ?_, htBits⟩
  rw [htBits, huBits, hSameFlags]

end Sys2Proof.Machine
end

section
/-! PROOFS. Reset and hazards: the reset edge (R160, R161), the full block (R167), and the cycle in which a response comes on
offer (R54, R166). -/

namespace Sys2Proof.Machine

/-! ### Inputs by name, readiness -/

theorem nextInput_of_inputs {s : State} {i : PortIn} {rest : List PortIn} (h : s.inputs = i :: rest) : nextInput s = i := by
  rw [nextInput, h]
  rfl

/-- R160: the block is not ready while `rst` is 1. -/
theorem cmdReady_of_rst {i : PortIn} (s : State) (hr : i.rst = true) : cmdReady i s = false := by
  rw [cmdReady, hr]
  rfl

/-- R167: without reset the block is ready exactly while it has room (log 8). -/
theorem cmdReady_of_no_rst {i : PortIn} (s : State) (hr : i.rst = false) :
    cmdReady i s = decide (s.inFlight.length < s.params.depth) := by
  rw [cmdReady, hr]
  rfl

/-- R54: no command is accepted while the block is not ready. -/
theorem accepts_false_of_not_cmdReady {i : PortIn} {s : State} (h : cmdReady i s = false) : accepts i s = false := by
  rw [accepts, h, Bool.and_false]

/-- Settles O2: the edge is the reset edge, which leaves nothing in flight, so there is room for a command. -/
theorem resetEdgeDiscardsEverything : Obligations.ResetEdgeDiscardsEverything := by
  refine ⟨fun s i rest hs hr => ?_, rfl, rfl⟩
  have hi := nextInput_of_inputs hs
  have hstep : step s = .next (tick (resetEdge { s with inputs := s.inputs.tail })) := step_of_rst (hi ▸ hr)
  have hinputs : s.inputs.tail = rest := by rw [hs]; rfl
  have hvalid : (outputs i s).rspValid = false := by rw [outputs, offeredIn_of_rst s hr]; rfl
  exact ⟨⟨_, hstep, rfl, rfl, rfl, hinputs, fun _ hj => cmdReady_of_nothing_inFlight hj rfl⟩,
    accepts_false_of_rst s hr, cmdReady_of_rst s hr, hvalid⟩

/-- Settles O47: a full block is not ready, so the edge accepts no command and only finishes, which loses no response. -/
theorem fullBlockAcceptsNothing : Obligations.FullBlockAcceptsNothing := by
  refine ⟨fun s i hr => cmdReady_of_no_rst s hr, fun s i rest hs hr hfull => ?_⟩
  obtain rfl := nextInput_of_inputs hs
  have hready : cmdReady (nextInput s) s = false := by
    rw [cmdReady_of_no_rst s hr, hfull]
    exact decide_eq_false (Nat.lt_irrefl _)
  have haccepts := accepts_false_of_not_cmdReady hready
  exact ⟨hready, haccepts, _, step_of_not_accepts hr haccepts, finishEdge_err _ _, responses_finishEdge _ _⟩

/-! ### Edges that take no response (R166) -/

theorem finishEdge_of_not_rspReady {i : PortIn} (s : State) (h : i.rspReady = false) : finishEdge i s = tick s := by
  rw [finishEdge, takeResponse_eq_self (.inr h)]

/-- R54, R166: an edge with idle ports only lets a cycle pass. -/
theorem step_of_idle {s : State} (h : nextInput s = PortIn.idle) :
    step s = .next (tick { s with inputs := s.inputs.tail }) := by
  have hr : (nextInput s).rst = false := by rw [h]; rfl
  have hvalid : (nextInput s).cmdValid = false := by rw [h]; rfl
  have hready : (nextInput s).rspReady = false := by rw [h]; rfl
  rw [step_of_not_accepts hr (accepts_false_of_not_cmdValid s hvalid), finishEdge_of_not_rspReady _ hready]

/-- R166: `k` idle edges make every command in flight `k` cycles older, and lose none. -/
theorem runSteps_of_idle {k : Nat} {s : State} (h : s.inputs = List.replicate k PortIn.idle) :
    ∃ t, runSteps k s = .next t ∧ t.params = s.params ∧
      t.inFlight = s.inFlight.map (fun f => { f with age := f.age + k }) := by
  induction k generalizing s with
  | zero => exact ⟨s, rfl, rfl, by simp⟩
  | succ k ih =>
    rw [List.replicate_succ] at h
    have hstep := step_of_idle (nextInput_of_inputs h)
    obtain ⟨t, hrun, hparams, hflight⟩ := ih (s := tick { s with inputs := s.inputs.tail }) (by rw [tick_inputs, h]; rfl)
    refine ⟨t, runSteps_succ_eq_next.2 ⟨_, hstep, hrun⟩, hparams, ?_⟩
    simp [hflight, Function.comp_def, Nat.add_assoc, Nat.add_comm 1]

/-! ### The response on offer (R54, R166) -/

/-- R54, R48: an accepted command word that decodes takes its effect, which the inputs to come do not change. -/
theorem acceptCommand_of_exec {i : PortIn} {s u : State} {c : Instr} {rest : List PortIn} (ha : accepts i s = true)
    (hd : decodeWith s.params.singleBitOps i.cmd = .instr c) (hu : exec c { s with inputs := rest } = .next u) :
    acceptCommand i s = .next { u with inputs := s.inputs } := by
  rw [acceptCommand, if_pos ha, issue, hd]
  exact exec_withInputs hu s.inputs

/-- R54: without reset and with no command offered, the response on offer is that of the commands in flight. -/
theorem offeredIn_idle (s : State) : offeredIn PortIn.idle s = offered s := by
  refine offeredIn_of_acceptCommand rfl ?_
  rw [acceptCommand, accepts_false_of_not_cmdValid s rfl]
  rfl

/-- R54, R166: in a cycle whose offer is that of one command in flight, `rsp_valid` says whether that command is LATENCY cycles
old, and `rsp_data` is then its result. -/
theorem outputs_of_one_inFlight {i : PortIn} {s u : State} {f : InFlight} (ho : offeredIn i s = offered u)
    (hf : u.inFlight = [f]) :
    (outputs i s).rspValid = decide (u.params.latency ≤ f.age) ∧
      (u.params.latency ≤ f.age → (outputs i s).rspData = f.result) := by
  rw [outputs, ho, offered, hf]
  by_cases h : u.params.latency ≤ f.age
  · simp [h]
  · simp [h]

/-- Settles O46: the accepted command is alone in flight, at age 0 in the cycle of acceptance and at age `k + 1` after the edge
that accepts it and `k` idle ones. -/
theorem responseOfferedAfterLatency : Obligations.ResponseOfferedAfterLatency := by
  intro s i c k hflight hs hr hvalid hready hd
  obtain rfl := nextInput_of_inputs hs
  have ha : accepts (nextInput s) s = true := by rw [accepts, hvalid, cmdReady_of_nothing_inFlight hr hflight]; rfl
  obtain ⟨u, hu⟩ : ∃ u, exec c { s with inputs := s.inputs.tail } = .next u :=
    let ⟨_, _, hu, _⟩ := exec_completesOnce c _
    ⟨_, hu⟩
  obtain ⟨huParams, -, r, huFlight⟩ := exec_next_inv hu
  rw [hflight, List.nil_append] at huFlight
  have huInputs : u.inputs = List.replicate k PortIn.idle := by rw [exec_next_inputs hu, hs]; rfl
  have hoffer := offeredIn_of_acceptCommand hr (acceptCommand_of_exec ha hd hu)
  obtain ⟨hvalidNow, hdataNow⟩ := outputs_of_one_inFlight hoffer huFlight
  have hstep : step s = .next (tick u) := by rw [step_of_accepts ha hd hu, finishEdge_of_not_rspReady u hready]
  obtain ⟨t, hrun, htParams, htFlight⟩ := runSteps_of_idle (s := tick u) huInputs
  have haged : t.inFlight = [{ result := r, age := k + 1 }] := by
    rw [htFlight, tick_inFlight, huFlight, Nat.add_comm k]
    rfl
  obtain ⟨hvalidLater, hdataLater⟩ := outputs_of_one_inFlight (offeredIn_idle t) haged
  rw [htParams, tick_params, huParams] at hvalidLater hdataLater
  simp only [huParams, Nat.le_zero] at hvalidNow hdataNow
  exact ⟨u, r, hu, huFlight, hvalidNow, hdataNow, t, runSteps_succ_eq_next.2 ⟨_, hstep, hrun⟩, haged, hvalidLater,
    hdataLater⟩

end Sys2Proof.Machine
end

section
/-! PROOFS. The flips: what FLIPBIT answers up to index 7, bit by bit and as a one-bit field (R114), the fixed-position flips as
FLIPBIT at 0 and 7 (R122, R123), and the default layout of ERR (R25). -/

namespace Sys2Proof.Machine

/-! ### The inverted bit (R114) -/

/-- R114: the inverse of bit `i` of `b`, as the value of a one-bit field. -/
def invertedBit (b i : Byte) : Byte := if b.getLsbD i.toNat then 0 else 1

theorem invertedBit_le_one (b i : Byte) : (invertedBit b i).toNat ≤ 1 := by
  rw [invertedBit]
  split <;> decide

theorem invertedBit_getLsbD_zero (b i : Byte) : (invertedBit b i).getLsbD 0 = !b.getLsbD i.toNat := by
  rw [invertedBit]
  cases b.getLsbD i.toNat <;> rfl

/-! ### FLIPBIT on an index up to 7 (R114) -/

section FlippedByte

variable {i : Byte} (hi : i.toNat ≤ 7)
include hi

theorem flipBitByte_getLsbD (b : Byte) (j : Nat) :
    (flipBitByte b i).getLsbD j = (decide (j = i.toNat) ^^ b.getLsbD j) := by
  rw [flipBitByte, resultByte_getLsbD _ _ (flipBitValue_lt_256 b.isLt hi), flipBitValue_testBit, BitVec.testBit_toNat]

/-- R114: a bit inverted twice is the bit. -/
theorem flipBitByte_flipBitByte (b : Byte) : flipBitByte (flipBitByte b i) i = b := by
  refine BitVec.eq_of_getLsbD_eq fun j _ => ?_
  rw [flipBitByte_getLsbD hi, flipBitByte_getLsbD hi, ← Bool.xor_assoc, Bool.xor_self, Bool.false_xor]

/-- R114: inverting a bit is writing its inverse in its one-bit field. -/
theorem flipBitByte_eq_insertByte (b : Byte) : flipBitByte b i = insertByte b i 1 (invertedBit b i) := by
  refine BitVec.eq_of_getLsbD_eq fun j _ => ?_
  rw [flipBitByte_getLsbD hi, insertByte_one_bit_getLsbD hi (invertedBit_le_one b i)]
  by_cases hj : j = i.toNat
  · rw [if_pos hj, decide_eq_true hj, Bool.true_xor, invertedBit_getLsbD_zero, hj]
  · rw [if_neg hj, decide_eq_false hj, Bool.false_xor]

/-- R114: FLIPBIT after FLIPBIT at one index answers the first byte. -/
theorem exec_flipbit_flipBitByte (b : Byte) (st : State) :
    exec (.flipbit (flipBitByte b i) i) st = .next (answered b st) := by
  rw [exec_flipbit_of_valid hi, flipBitByte_flipBitByte hi]

/-- R114: FLIPBIT is INSERT of the inverted bit. -/
theorem exec_flipbit_eq_insert (b : Byte) (st : State) :
    exec (.flipbit b i) st = exec (.insert b i 1 (invertedBit b i)) st := by
  rw [exec_flipbit_of_valid hi, exec_insert_of_valid (checkInsert_one_bit hi (invertedBit_le_one b i)),
    flipBitByte_eq_insertByte hi]

end FlippedByte

/-! ### FLIPBIT, FLIPLSB and FLIPMSB (R114, R122, R123) -/

/-- Settles O38: by the bits of the byte FLIPBIT answers, which are those of INSERT of the inverted bit. -/
theorem flipbitInvertsBit : Obligations.FlipbitInvertsBit := fun v l i b st =>
  ⟨decodeWith_true_cmdWord (m := .flipbit) (by decide) v l i b,
    fun hi => ⟨_, exec_flipbit_of_valid hi b st, flipBitByte_toNat hi b, flipBitByte_getLsbD hi b,
      exec_flipbit_flipBitByte hi b st, exec_flipbit_eq_insert hi b st⟩,
    fun hi => (validates_flipbit b i).exec_of_some (checkIndex_of_ge hi) st⟩

/-- Settles O42: by FLIPBIT at 0 and at 7. -/
theorem flipFixedBit : Obligations.FlipFixedBit := fun v l s b st =>
  ⟨decodeWith_true_cmdWord (m := .fliplsb) (by decide) v l s b,
    decodeWith_true_cmdWord (m := .flipmsb) (by decide) v l s b,
    ⟨_, (exec_fliplsb_eq_flipbit b st).trans (exec_flipbit_of_valid (by decide) b st), flipBitByte_toNat (by decide) b,
      flipBitByte_getLsbD (by decide) b⟩,
    ⟨_, (exec_flipmsb_eq_flipbit b st).trans (exec_flipbit_of_valid (by decide) b st), flipBitByte_toNat (by decide) b,
      flipBitByte_getLsbD (by decide) b⟩,
    exec_fliplsb_eq_flipbit b st, exec_flipmsb_eq_flipbit b st⟩

/-! ### The default layout of ERR (R25) -/

/-- R25: the bits the default names are 0x1F, so those it does not name are 0xE0. -/
theorem encodeKinds_default_all : encodeKinds Config.flagBit (fun _ => true) = 0x1F#8 := by decide

theorem reservedBits_default : reservedBits Config.flagBit = 0xE0#8 := by
  rw [reservedBits, encodeKinds_default_all]
  rfl

/-- Settles O18: each mask is 1 shifted to the place the default gives its kind. -/
theorem defaultErrLayout : Obligations.DefaultErrLayout :=
  ⟨rfl, flagMask_eq _ _, flagMask_eq _ _, flagMask_eq _ _, flagMask_eq _ _, flagMask_eq _ _, reservedBits_default⟩

end Sys2Proof.Machine
end
